-- ==== Sys2Proof/Word.lean ====
section
/-! DEFINITION. The widths of the machine's values (00_scope.md R8): every value is unsigned, bit 0 is the
least significant bit. -/

namespace Sys2Proof

/-- `u8`: a register, a timer, a memory cell (R8, R20). -/
abbrev Byte := BitVec 8

/-- `u16`: an opcode, `pc`, `I`, a return address (R8, R22, R23). -/
abbrev Word := BitVec 16

/-- `u4`: one hexadecimal digit of an opcode; as `X` or `Y` it is a register number, every value legal (R8, R93). -/
abbrev Nibble := BitVec 4

/-- `u12`: the immediate `NNN` (R91). -/
abbrev Imm12 := BitVec 12

end Sys2Proof
end

