-- ==== Sys2Proof/Syntax.lean ====
section
/-! DEFINITION. The 34 instructions (30_encoding.md R103), one constructor per row of spec/opcode_table.json. -/

namespace Sys2Proof

/-- An instruction with its operands exactly as cut from the opcode (R91, R93): `x`, `y` register numbers, `nn` and
`nnn` unsigned immediates, `n` a row count. `u` is a nibble the decoder does not look at (R99); it stays in the
instruction because the fault record holds the raw 16 bits of the opcode (R230; log 13). -/
inductive Instr where
  /-- `00E0` clear the display (R120). -/
  | cls (u : Nibble)
  /-- `00EE` return (R121). -/
  | ret (u : Nibble)
  /-- `1NNN` jump (R122). -/
  | jp (nnn : Imm12)
  /-- `2NNN` call (R123). -/
  | call (nnn : Imm12)
  /-- `3XNN` skip if equal to immediate (R130). -/
  | seImm (x : Nibble) (nn : Byte)
  /-- `4XNN` skip if not equal to immediate (R131). -/
  | sneImm (x : Nibble) (nn : Byte)
  /-- `5XY0` skip if registers equal (R132). -/
  | seReg (x y u : Nibble)
  /-- `6XNN` load immediate (R140). -/
  | ldImm (x : Nibble) (nn : Byte)
  /-- `7XNN` add immediate (R141). -/
  | addImm (x : Nibble) (nn : Byte)
  /-- `8XY0` copy (R150). -/
  | ldReg (x y : Nibble)
  /-- `8XY1` or (R151). -/
  | orReg (x y : Nibble)
  /-- `8XY2` and (R152). -/
  | andReg (x y : Nibble)
  /-- `8XY3` exclusive or (R153). -/
  | xorReg (x y : Nibble)
  /-- `8XY4` add with carry flag (R154). -/
  | addReg (x y : Nibble)
  /-- `8XY5` subtract, flag is not-borrow (R155). -/
  | sub (x y : Nibble)
  /-- `8XY6` shift right by one (R156). -/
  | shr (x y : Nibble)
  /-- `8XY7` reverse subtract (R157). -/
  | subn (x y : Nibble)
  /-- `8XYE` shift left by one (R158). -/
  | shl (x y : Nibble)
  /-- `9XY0` skip if registers differ (R133). -/
  | sneReg (x y u : Nibble)
  /-- `ANNN` load index (R170). -/
  | ldI (nnn : Imm12)
  /-- `BNNN` jump with offset `V0` (R171). -/
  | jpV0 (nnn : Imm12)
  /-- `CXNN` masked random byte (R172). -/
  | rnd (x : Nibble) (nn : Byte)
  /-- `DXYN` draw a sprite (R180). -/
  | drw (x y n : Nibble)
  /-- `EX9E` skip if key down (R190). -/
  | skp (x : Nibble)
  /-- `EXA1` skip if key up (R191). -/
  | sknp (x : Nibble)
  /-- `FX07` read the delay timer (R200). -/
  | ldVxDt (x : Nibble)
  /-- `FX0A` wait for a key (R201). -/
  | ldVxK (x : Nibble)
  /-- `FX15` set the delay timer (R202). -/
  | ldDtVx (x : Nibble)
  /-- `FX18` set the sound timer (R203). -/
  | ldStVx (x : Nibble)
  /-- `FX1E` add register to index (R210). -/
  | addI (x : Nibble)
  /-- `FX29` address of a font glyph (R211). -/
  | ldF (x : Nibble)
  /-- `FX33` store binary-coded decimal (R212). -/
  | ldB (x : Nibble)
  /-- `FX55` store registers `V0` to `VX` (R213). -/
  | stRegs (x : Nibble)
  /-- `FX65` load registers `V0` to `VX` (R214). -/
  | ldRegs (x : Nibble)
deriving DecidableEq, Repr

end Sys2Proof
end

