-- ==== Sys2Proof/WellFormed.lean ====
section
/-! DEFINITION. Well-formed instructions. The operand types of `Instr` already bound every operand to the values its
encoding admits (R93: every value is legal). What is left to check is the canonical spelling of R99: the one an
assembler emits (R103). The machine decodes and executes the other spellings as well (R99, V7); no statement about
the machine needs this check as a premise (log 13). -/

namespace Sys2Proof

/-- The instruction is one the assembler of R103 emits: the nibble the decoder ignores (R99) is 0. -/
def Instr.wellFormed : Instr → Bool
  | .cls u | .ret u => u == 0
  | .seReg _ _ u | .sneReg _ _ u => u == 0
  | .jp _ | .call _ | .ldI _ | .jpV0 _ => true
  | .seImm _ _ | .sneImm _ _ | .ldImm _ _ | .addImm _ _ | .rnd _ _ => true
  | .ldReg _ _ | .orReg _ _ | .andReg _ _ | .xorReg _ _ | .addReg _ _ => true
  | .sub _ _ | .shr _ _ | .subn _ _ | .shl _ _ | .drw _ _ _ => true
  | .skp _ | .sknp _ | .ldVxDt _ | .ldVxK _ | .ldDtVx _ | .ldStVx _ => true
  | .addI _ | .ldF _ | .ldB _ | .stRegs _ | .ldRegs _ => true

end Sys2Proof
end

