-- ==== Sys2Proof/Decode.lean ====
section
/-! DEFINITION. Decode and dispatch on the opcode (30_encoding.md R90 to R102, R106), and the encoder. Both are
functions of the 16 opcode bits alone (R106). -/

namespace Sys2Proof

/-- The Decoded Operand Record (R91): seven overlapping fields cut from every opcode. -/
structure OperandRecord where
  opcode : Word
  inst   : Nibble
  x      : Nibble
  y      : Nibble
  n      : Nibble
  nn     : Byte
  nnn    : Imm12
deriving DecidableEq, Repr

/-- The fixed bit positions of R91. Cutting never fails (R102, R243). -/
def operandRecord (w : Word) : OperandRecord :=
  { opcode := w
    inst   := w.extractLsb' 12 4
    x      := w.extractLsb' 8 4
    y      := w.extractLsb' 4 4
    n      := w.extractLsb' 0 4
    nn     := w.extractLsb' 0 8
    nnn    := w.extractLsb' 0 12 }

/-- Why bytes are no instruction. The four `unknown` reasons name the second-level lookup that found no case (R100);
each becomes `UnknownOpcodeFault` (R231). -/
inductive Reject where
  /-- `inst` = 0 and `NN` is neither 0xE0 nor 0xEE (R95). -/
  | unknown0 (opcode : Word)
  /-- `inst` = 8 and `N` is none of the nine variants (R96). -/
  | unknown8 (opcode : Word)
  /-- `inst` = E and `NN` is neither 0x9E nor 0xA1 (R97). -/
  | unknownE (opcode : Word)
  /-- `inst` = F and `NN` is none of the nine variants (R98). -/
  | unknownF (opcode : Word)
  /-- Fewer than two bytes are left (R90); the fetch never asks for this. -/
  | truncated
deriving DecidableEq, Repr

/-- Second level for `inst` = 0, keyed on `NN`; the `X` nibble is not looked at (R95, R99). -/
def decode0 (f : OperandRecord) : Except Reject Instr :=
  if f.nn = 0xE0 then .ok (.cls f.x)
  else if f.nn = 0xEE then .ok (.ret f.x)
  else .error (.unknown0 f.opcode)

/-- Second level for `inst` = 8, keyed on `N` (R96). -/
def decode8 (f : OperandRecord) : Except Reject Instr :=
  if f.n = 0x0 then .ok (.ldReg f.x f.y)
  else if f.n = 0x1 then .ok (.orReg f.x f.y)
  else if f.n = 0x2 then .ok (.andReg f.x f.y)
  else if f.n = 0x3 then .ok (.xorReg f.x f.y)
  else if f.n = 0x4 then .ok (.addReg f.x f.y)
  else if f.n = 0x5 then .ok (.sub f.x f.y)
  else if f.n = 0x6 then .ok (.shr f.x f.y)
  else if f.n = 0x7 then .ok (.subn f.x f.y)
  else if f.n = 0xE then .ok (.shl f.x f.y)
  else .error (.unknown8 f.opcode)

/-- Second level for `inst` = E, keyed on `NN` (R97). -/
def decodeE (f : OperandRecord) : Except Reject Instr :=
  if f.nn = 0x9E then .ok (.skp f.x)
  else if f.nn = 0xA1 then .ok (.sknp f.x)
  else .error (.unknownE f.opcode)

/-- Second level for `inst` = F, keyed on `NN` (R98). -/
def decodeF (f : OperandRecord) : Except Reject Instr :=
  if f.nn = 0x07 then .ok (.ldVxDt f.x)
  else if f.nn = 0x0A then .ok (.ldVxK f.x)
  else if f.nn = 0x15 then .ok (.ldDtVx f.x)
  else if f.nn = 0x18 then .ok (.ldStVx f.x)
  else if f.nn = 0x1E then .ok (.addI f.x)
  else if f.nn = 0x29 then .ok (.ldF f.x)
  else if f.nn = 0x33 then .ok (.ldB f.x)
  else if f.nn = 0x55 then .ok (.stRegs f.x)
  else if f.nn = 0x65 then .ok (.ldRegs f.x)
  else .error (.unknownF f.opcode)

/-- First-level dispatch, keyed on `inst` alone (R94). -/
def dispatch (f : OperandRecord) : Except Reject Instr :=
  if f.inst = 0x0 then decode0 f
  else if f.inst = 0x1 then .ok (.jp f.nnn)
  else if f.inst = 0x2 then .ok (.call f.nnn)
  else if f.inst = 0x3 then .ok (.seImm f.x f.nn)
  else if f.inst = 0x4 then .ok (.sneImm f.x f.nn)
  else if f.inst = 0x5 then .ok (.seReg f.x f.y f.n)
  else if f.inst = 0x6 then .ok (.ldImm f.x f.nn)
  else if f.inst = 0x7 then .ok (.addImm f.x f.nn)
  else if f.inst = 0x8 then decode8 f
  else if f.inst = 0x9 then .ok (.sneReg f.x f.y f.n)
  else if f.inst = 0xA then .ok (.ldI f.nnn)
  else if f.inst = 0xB then .ok (.jpV0 f.nnn)
  else if f.inst = 0xC then .ok (.rnd f.x f.nn)
  else if f.inst = 0xD then .ok (.drw f.x f.y f.n)
  else if f.inst = 0xE then decodeE f
  else decodeF f

/-- The instruction an opcode selects, or the name of the lookup that rejects it (R94 to R102). -/
def decode (w : Word) : Except Reject Instr :=
  dispatch (operandRecord w)

/-- The opcode of two consecutive bytes, high byte first (R64, R90). -/
def opcodeOfBytes (hi lo : Byte) : Word :=
  hi ++ lo

/-- Bits 15:8 of an opcode, the byte at the lower address (R64). -/
def highByte (w : Word) : Byte :=
  w.extractLsb' 8 8

/-- Bits 7:0 of an opcode, the byte at the higher address (R64). -/
def lowByte (w : Word) : Byte :=
  w.extractLsb' 0 8

/-- Decoding a byte string: the first instruction and the rest (R90, R102). -/
def decodeBytes : List Byte → Except Reject (Instr × List Byte)
  | hi :: lo :: rest =>
    match decode (opcodeOfBytes hi lo) with
    | .ok i => .ok (i, rest)
    | .error r => .error r
  | _ => .error .truncated

/-- Format `NNN` (R92). -/
def formNNN (inst : Nibble) (nnn : Imm12) : Word :=
  inst ++ nnn

/-- Formats `XNN`, `FIXED` and `XSUB` (R92): in the last two the low byte is a fixed sub-opcode. -/
def formXNN (inst x : Nibble) (nn : Byte) : Word :=
  inst ++ x ++ nn

/-- Format `XYN` (R92). -/
def formXYN (inst x y n : Nibble) : Word :=
  inst ++ x ++ y ++ n

/-- The opcode of an instruction, from the encoding column of R103 and the formats of R92. -/
def encode : Instr → Word
  | .cls u        => formXNN 0x0 u 0xE0
  | .ret u        => formXNN 0x0 u 0xEE
  | .jp nnn       => formNNN 0x1 nnn
  | .call nnn     => formNNN 0x2 nnn
  | .seImm x nn   => formXNN 0x3 x nn
  | .sneImm x nn  => formXNN 0x4 x nn
  | .seReg x y u  => formXYN 0x5 x y u
  | .ldImm x nn   => formXNN 0x6 x nn
  | .addImm x nn  => formXNN 0x7 x nn
  | .ldReg x y    => formXYN 0x8 x y 0x0
  | .orReg x y    => formXYN 0x8 x y 0x1
  | .andReg x y   => formXYN 0x8 x y 0x2
  | .xorReg x y   => formXYN 0x8 x y 0x3
  | .addReg x y   => formXYN 0x8 x y 0x4
  | .sub x y      => formXYN 0x8 x y 0x5
  | .shr x y      => formXYN 0x8 x y 0x6
  | .subn x y     => formXYN 0x8 x y 0x7
  | .shl x y      => formXYN 0x8 x y 0xE
  | .sneReg x y u => formXYN 0x9 x y u
  | .ldI nnn      => formNNN 0xA nnn
  | .jpV0 nnn     => formNNN 0xB nnn
  | .rnd x nn     => formXNN 0xC x nn
  | .drw x y n    => formXYN 0xD x y n
  | .skp x        => formXNN 0xE x 0x9E
  | .sknp x       => formXNN 0xE x 0xA1
  | .ldVxDt x     => formXNN 0xF x 0x07
  | .ldVxK x      => formXNN 0xF x 0x0A
  | .ldDtVx x     => formXNN 0xF x 0x15
  | .ldStVx x     => formXNN 0xF x 0x18
  | .addI x       => formXNN 0xF x 0x1E
  | .ldF x        => formXNN 0xF x 0x29
  | .ldB x        => formXNN 0xF x 0x33
  | .stRegs x     => formXNN 0xF x 0x55
  | .ldRegs x     => formXNN 0xF x 0x65

/-- The two bytes of an instruction as they lie in memory (R64, R90). -/
def encodeBytes (i : Instr) : List Byte :=
  [highByte (encode i), lowByte (encode i)]

/-- The opcode of a table word: bits above `nbits` are 0. The table numbers bits as R91 does. -/
def tableOpcode (nbits w : Nat) : Word :=
  BitVec.ofNat 16 (w % 2 ^ nbits)

/-- The instruction the decoder reads from the bytes of a table word, laid out high byte first (R64). -/
def decodeTableWord (nbits w : Nat) : Option Instr :=
  match decodeBytes [highByte (tableOpcode nbits w), lowByte (tableOpcode nbits w)] with
  | .ok (i, _) => some i
  | .error _ => none

end Sys2Proof
end

