-- ==== Sys2Proof/Config.lean ====
section
/-! DEFINITION. What is fixed for one machine (00_scope.md R6) and the free value of the random source. -/

namespace Sys2Proof

/-- What follows a runtime fault (R6 `FAULT_POLICY`, R238). The spec picks `halt`; `skip` is the alternative it
describes and does not adopt (93_implementation_defined.md U4; log 4). -/
inductive FaultPolicy where
  /-- Nothing but `Reset` leaves the faulted state. -/
  | halt
  /-- The host may skip an unknown opcode. -/
  | skip
deriving DecidableEq, Repr

/-- The font table: 16 glyphs of 5 bytes (R63). -/
abbrev Font := Vector Byte 80

/-- A choice among the keys that are down, as a table: key vectors, each with the key code reported for it. -/
abbrev KeyTable := List (BitVec 16 × Nibble)

/-- The parameters of R6 that the core samples, constant from reset to the end of a run (R38, log 5). `ROM` is the
argument of the `LoadROM` event. -/
structure Config where
  /-- `QUIRK_SHIFT`: `8XY6`/`8XYE` shift `x[X]` itself instead of `x[Y]`. -/
  quirkShift  : Bool
  /-- `QUIRK_INDEX`: `FX55`/`FX65` add `X+1` to `I` afterwards. -/
  quirkIndex  : Bool
  /-- `FAULT_POLICY`. -/
  faultPolicy : FaultPolicy
  /-- `KEY_SELECT`: which key `FX0A` reports (R6, R201). A function from key vectors to key codes as plain data; a
  vector with no entry has the lowest code (log 11). -/
  keySelect   : KeyTable
  /-- `FONT`: contents of addresses 0x000..0x04F. -/
  font        : Font
deriving DecidableEq, Repr

/-- FREE VALUE (R39, R172, U6; log 2): the `k`-th random byte drawn from the random source when the schedule does
not name one. It has no body: nothing can be proved of its value. -/
opaque Config.freeByte : Nat → Byte

end Sys2Proof
end

