-- ==== Sys2Proof/Machine/Font.lean ====
section
/-! DEFINITION. The default values of the configuration parameters (00_scope.md R6). -/

namespace Sys2Proof.Machine

/-- The conventional font table of R63, glyph by glyph (from general knowledge, not in the source: PRESUMED, log 6). -/
def fontBytes : List Byte :=
  [0xF0, 0x90, 0x90, 0x90, 0xF0] ++ [0x20, 0x60, 0x20, 0x20, 0x70] ++
  [0xF0, 0x10, 0xF0, 0x80, 0xF0] ++ [0xF0, 0x10, 0xF0, 0x10, 0xF0] ++
  [0x90, 0x90, 0xF0, 0x10, 0x10] ++ [0xF0, 0x80, 0xF0, 0x10, 0xF0] ++
  [0xF0, 0x80, 0xF0, 0x90, 0xF0] ++ [0xF0, 0x10, 0x20, 0x40, 0x40] ++
  [0xF0, 0x90, 0xF0, 0x90, 0xF0] ++ [0xF0, 0x90, 0xF0, 0x10, 0xF0] ++
  [0xF0, 0x90, 0xF0, 0x90, 0x90] ++ [0xE0, 0x90, 0xE0, 0x90, 0xE0] ++
  [0xF0, 0x80, 0x80, 0x80, 0xF0] ++ [0xE0, 0x90, 0x90, 0x90, 0xE0] ++
  [0xF0, 0x80, 0xF0, 0x80, 0xF0] ++ [0xF0, 0x80, 0xF0, 0x80, 0x80]

/-- The default of the parameter `FONT` (R6, R63). -/
def defaultFont : Font :=
  Vector.ofFn fun i => fontBytes.getD i.val 0

/-- The defaults of R6: both quirks false, `FAULT_POLICY` halt, `KEY_SELECT` the lowest code for every key vector, the
conventional font. -/
def defaultConfig : Config :=
  { quirkShift := false, quirkIndex := false, faultPolicy := .halt, keySelect := [], font := defaultFont }

end Sys2Proof.Machine
end

