-- ==== Sys2Proof/Machine/Memory.lean ====
section
/-! DEFINITION. The memory space (20_memory.md R60): 4096 bytes, held as a sparse list in one canonical form. These
operations are raw storage; the range and write-protect checks of R66 and R67 stand in Ops.lean. -/

namespace Sys2Proof.Machine

/-- (address, byte) pairs, addresses strictly rising, no pair equal to what an unlisted address reads as. -/
abbrev Memory := List Host.Cell

/-- What an unlisted address reads as: the reset contents, `FONT` at 0x000..0x04F and 0x00 elsewhere (R42, R62). -/
def Memory.unlisted (font : Font) (a : Nat) : Byte :=
  font.getD a 0

/-- The byte listed at an address, if any. -/
def Memory.lookup : Memory → Nat → Option Byte
  | [], _ => none
  | c :: m, a => if c.1 = a then some c.2 else Memory.lookup m a

/-- The byte at an address (R70: a read has no side effect). -/
def Memory.read (font : Font) (m : Memory) (a : Nat) : Byte :=
  (Memory.lookup m a).getD (Memory.unlisted font a)

/-- List `b` at `a`, in address order. -/
def Memory.put : Memory → Nat → Byte → Memory
  | [], a, b => [(a, b)]
  | c :: m, a, b =>
    if c.1 < a then c :: Memory.put m a b
    else if c.1 = a then (a, b) :: m
    else (a, b) :: c :: m

/-- Unlist an address; nothing beyond its place in the order is looked at. -/
def Memory.erase : Memory → Nat → Memory
  | [], _ => []
  | c :: m, a =>
    if c.1 < a then c :: Memory.erase m a
    else if c.1 = a then m
    else c :: m

/-- Store one byte, keeping the canonical form: storing what the unlisted address reads as unlists it. -/
def Memory.write (font : Font) (m : Memory) (a : Nat) (b : Byte) : Memory :=
  if b = Memory.unlisted font a then Memory.erase m a else Memory.put m a b

/-- Store bytes at consecutive addresses `a`, `a+1`, ... The addresses differ, so the order of the single stores
cannot be observed (log 18). -/
def Memory.writeSpan (font : Font) (m : Memory) (a : Nat) : List Byte → Memory
  | [] => m
  | b :: bs => Memory.write font (Memory.writeSpan font m (a + 1) bs) a b

/-- The `n` bytes at `a`, `a+1`, ..., `a+n-1`. -/
def Memory.readSpan (font : Font) (m : Memory) (a n : Nat) : List Byte :=
  (List.range n).map fun k => Memory.read font m (a + k)

/-- The canonical form: addresses strictly rising and inside the 4096-byte space (R60), no entry equal to what its
unlisted address reads as. -/
abbrev Memory.wf (font : Font) (m : Memory) : Prop :=
  m.Pairwise (fun c d => c.1 < d.1) ∧ ∀ c ∈ m, c.1 < 4096 ∧ c.2 ≠ Memory.unlisted font c.1

end Sys2Proof.Machine
end

