-- ==== Sys2Proof/Machine/State.lean ====
section
/-! DEFINITION. The machine state as plain data (10_state.md), the reasons a step can stop, and the state after
reset (R42). -/

namespace Sys2Proof.Machine

/-- The six kinds of runtime fault (60_exceptions.md R230). Entering one is a NEXT state (R236; log 3). -/
inductive FaultKind where
  /-- The opcode selects no instruction (R231). -/
  | unknownOpcode
  /-- `2NNN` with 48 live cells (R232). -/
  | stackOverflow
  /-- `00EE` with no live cell (R233). -/
  | stackUnderflow
  /-- An accessed address above 0xFFF (R234). -/
  | memRange
  /-- `FX33` or `FX55` writing below 0x200 (R237). -/
  | storeProtect
  /-- `EX9E` or `EXA1` with a key code above 15 (R235). -/
  | keyIndex
deriving DecidableEq, Repr

/-- The fault record `fault` (R34, R230). -/
structure FaultRecord where
  kind   : FaultKind
  /-- The fetch address of the faulting instruction. -/
  pc     : Word
  /-- The raw 16 bits, `none` when the fetch itself faulted. -/
  opcode : Option Word
deriving DecidableEq, Repr

/-- `run`, with `fault` inside it: the record is meaningful only when `run = Faulted` (R34; log 3). -/
inductive RunState where
  | running
  | faulted (record : FaultRecord)
deriving DecidableEq, Repr

/-- The atomic events of the three agents (00_scope.md R7; log 1). -/
inductive Event where
  /-- `Tick(rnd)`: the interpreter's step (30_encoding.md R105). -/
  | tick (rnd : Byte)
  /-- `TimerStep`: the timer driver's step (R245). -/
  | timerStep
  /-- `SetKeys(k)`: the host writes the key latch (R249). -/
  | setKeys (k : BitVec 16)
  /-- `RenderAck`: the host has rendered (R251). -/
  | renderAck
  /-- `Reset` (R270). -/
  | reset
  /-- `LoadROM(rom)` (R273). -/
  | loadRom (rom : List Byte)
  /-- The host move of `FAULT_POLICY = skip` (R238, U4; log 4). -/
  | skipFault
deriving DecidableEq, Repr

/-- The MODEL's own fields, not the spec's state: the schedule of the agents and the random input (logs 1, 2). -/
structure Environment where
  /-- Events still to happen, first one first; when none is left the interpreter ticks. -/
  agenda : List Event
  /-- The random byte supplied to the current `Tick` (R39). -/
  rnd    : Byte
  /-- How many random bytes were drawn from `Config.freeByte`. -/
  draws  : Nat
deriving DecidableEq, Repr

/-- Everything the spec gives the machine (10_state.md), its configuration inputs (R38) and the environment. -/
structure State where
  /-- `x[0]`..`x[15]`, the registers `V0`..`VF` (R20). -/
  V         : Vector Byte 16
  /-- The index register (R22). -/
  I         : Word
  /-- The program counter (R23). -/
  pc        : Word
  /-- `stack[0..47]` (R26). -/
  stack     : Vector Word 48
  /-- The number of live stack cells, 0..48 (R26). -/
  sp        : Fin 49
  /-- The delay timer (R29). -/
  DT        : Byte
  /-- The sound timer (R29). -/
  ST        : Byte
  /-- `mem[0..4095]` (R30). -/
  mem       : Memory
  /-- `disp[0..2047]`: cell `c + r*64` is bit `c` of row `r` (R31, R72). -/
  disp      : Vector (BitVec 64) 32
  /-- `draw_dirty` (R32). -/
  drawDirty : Bool
  /-- `keys[0..15]`: bit `k` set is key `k` down (R33). -/
  keys      : BitVec 16
  /-- `run` and `fault` (R34). -/
  run       : RunState
  /-- `Reset` has happened and `LoadROM` has not: it is still allowed (R273), and no `Tick` comes before it (R271,
  R274). -/
  loadOpen  : Bool
  /-- The configuration inputs (R6, R38). -/
  config    : Config
  /-- The model's environment. -/
  env       : Environment
deriving DecidableEq, Repr

/-- Reasons a step is not possible. Runtime faults of the machine are not among them: they are next states. -/
inductive Fault where
  /-- Raised by a `Tick` while `run = Faulted`: "`Tick` is not enabled" (R238), a stuck state holding the fault
  record. Safe: no further step is claimed. -/
  | halted (record : FaultRecord)
deriving DecidableEq, Repr

/-- Host moves the spec does not allow, and instructions without a meaning. -/
inductive Refusal where
  /-- Raised by `exec`'s arm of an instruction that has no meaning yet. Safe. -/
  | notModelled (mnemonic : String)
  /-- Raised by `LoadROM` of more than 3584 bytes: "refuse; load fault; no Tick may follow" (R242, R273). Safe. -/
  | romTooLarge (length : Nat)
  /-- Raised by `LoadROM` after an earlier one: it "is allowed once, after `Reset` and before the first `Tick`"
  (R273). Safe. -/
  | loadTooLate
  /-- Raised by a `Tick` after `Reset` and before `LoadROM`: "The required order of host events is `Reset`, then
  `LoadROM`, then any mixture" (R274; R271). Safe. -/
  | notLoaded
  /-- Raised by the skip move where it is not enabled: policy halt, no fault, or another kind of fault (R238, U4).
  Safe. -/
  | skipNotEnabled
deriving DecidableEq, Repr

/-- The value of every piece of state after the host event `Reset` (R42, R270), for given configuration inputs. The
stack cells are the model's choice (log 9), the environment fields too (log 10). -/
def State.boot (c : Config) : State :=
  { V         := Vector.replicate 16 0
    I         := 0
    pc        := 0x200
    stack     := Vector.replicate 48 0
    sp        := 0
    DT        := 0
    ST        := 0
    mem       := []
    disp      := Vector.replicate 32 0
    drawDirty := false
    keys      := 0
    run       := .running
    loadOpen  := true
    config    := c
    env       := { agenda := [], rnd := 0, draws := 0 } }

/-- The machine right after reset, with the default configuration (R6, R42). -/
def State.reset : State :=
  State.boot defaultConfig

end Sys2Proof.Machine
end

