-- ==== Sys2Proof/Machine/Flags.lean ====
section
/-! DEFINITION. Every value VF receives implicitly (10_state.md R35): carry, not-borrow, shifted-out bit; the
collision flag is computed in Draw.lean. -/

namespace Sys2Proof.Machine

/-- A flag as the `u8` 0 or 1 (R35). -/
def flagByte (f : Bool) : Byte :=
  if f then 1 else 0

/-- `8XY4`: the exact sum exceeds 255 (R154). -/
def carryOut (a b : Byte) : Bool :=
  decide (a.toNat + b.toNat > 255)

/-- `8XY5`, `8XY7`: no borrow, minuend at least the subtrahend (R155, R157). -/
def notBorrow (minuend subtrahend : Byte) : Bool :=
  decide (minuend.toNat ≥ subtrahend.toNat)

/-- `8XY6`: the bit shifted out to the right (R156). -/
def shiftedOutRight (v : Byte) : Bool :=
  v.getLsbD 0

/-- `8XYE`: the bit shifted out to the left (R158). -/
def shiftedOutLeft (v : Byte) : Bool :=
  v.getLsbD 7

end Sys2Proof.Machine
end

