-- ==== Sys2Proof/Machine/Operands.lean ====
section
/-! DEFINITION. Operand forms: register numbers, addresses, key codes, sprite coordinates (30_encoding.md R93). -/

namespace Sys2Proof.Machine

/-- VF, register 15 (R21). -/
def regF : Nibble := 0xF

/-- Read general register `n` (R10, R20); no register is hardwired. -/
def State.getV (s : State) (n : Nibble) : Byte :=
  s.V[n.toNat]

/-- Write general register `n`; a later read sees the new value (R10). -/
def State.setV (s : State) (n : Nibble) (b : Byte) : State :=
  { s with V := s.V.set n.toNat b }

/-- `I` as an address: an exact natural number (R68). -/
def State.indexAddress (s : State) : Nat :=
  s.I.toNat

/-- `zext_16(NNN)` (R93). -/
def jumpTarget (nnn : Imm12) : Word :=
  nnn.setWidth 16

/-- `zext_16(NNN) +16 zext_16(x[0])` (R171). -/
def State.offsetTarget (s : State) (nnn : Imm12) : Word :=
  nnn.setWidth 16 + (s.getV 0).setWidth 16

/-- The operand `8XY6`/`8XYE` shift: `x[X]` under `QUIRK_SHIFT`, else `x[Y]` (R156, R158). -/
def State.shiftOperand (s : State) (x y : Nibble) : Byte :=
  if s.config.quirkShift then s.getV x else s.getV y

/-- `zext_16(5 * (x[X] & 0x0F))` (R211). -/
def State.glyphAddress (s : State) (x : Nibble) : Word :=
  5 * (s.getV x &&& 0x0F).setWidth 16

/-- Hundreds, tens, ones (R212). -/
def bcdDigits (v : Byte) : List Byte :=
  [BitVec.ofNat 8 (v.toNat / 100), BitVec.ofNat 8 (v.toNat / 10 % 10), BitVec.ofNat 8 (v.toNat % 10)]

/-- `x[0]`, ..., `x[X]` (R213). -/
def State.registersTo (s : State) (x : Nibble) : List Byte :=
  s.V.toList.take (x.toNat + 1)

/-- Registers `x[0]`, `x[1]`, ... receive the bytes, as many as there are (R214). -/
def State.loadRegisters (s : State) (bytes : List Byte) : State :=
  { s with V := Vector.ofFn fun k => bytes.getD k.val s.V[k] }

/-- Under `QUIRK_INDEX`, `I <- I +16 (X + 1)`; else `I` is unchanged (R213, R214). -/
def State.advanceIndex (s : State) (x : Nibble) : State :=
  if s.config.quirkIndex then { s with I := s.I + BitVec.ofNat 16 (x.toNat + 1) } else s

/-- `keys[k]`: key `k` is down (R33). -/
def State.keyDown (s : State) (k : Nat) : Bool :=
  s.keys.getLsbD k

/-- The lowest key code that is down, `none` when every key is up: the choice this spec makes for `KEY_SELECT` (R201,
decision D14; log 11). -/
def State.lowestKey (s : State) : Option Nibble :=
  ((List.range 16).find? fun k => s.keyDown k).map (BitVec.ofNat 4)

/-- `KEY_SELECT(keys)` (R6, R201): the key code the parameter's table gives for this key vector, `none` when every key
is up. The parameter is a function to "a key code that is down": an entry that names a key that is up is no choice and
leaves the lowest, as a vector with no entry does (log 11). -/
def State.keySelect (s : State) : Option Nibble :=
  match s.config.keySelect.lookup s.keys with
  | some k => if s.keyDown k.toNat then some k else s.lowestKey
  | none => s.lowestKey

/-- `x[X] & 63`, the start column of a sprite (R180). -/
def State.spriteColumn (s : State) (x : Nibble) : Nat :=
  (s.getV x &&& 63).toNat

/-- `x[Y] & 31`, the start row of a sprite (R180). -/
def State.spriteRow (s : State) (y : Nibble) : Nat :=
  (s.getV y &&& 31).toNat

/-- The bit of a sprite byte drawn `c` columns right of the start column: bit 7 is the leftmost (R181; PRESUMED,
log 7). -/
def spritePixel (b : Byte) (c : Nat) : Bool :=
  b.getLsbD (7 - c)

end Sys2Proof.Machine
end

