-- ==== Sys2Proof/Machine/Ops.lean ====
section
/-! DEFINITION. The named operations of 00_scope.md R10 over memory, stack, `pc` and display, and fault entry. An
operation that can raise answers `Except FaultKind`; `conclude` turns a raised kind into the fault entry of R236. -/

namespace Sys2Proof.Machine

/-! Memory (20_memory.md). -/

/-- The byte at an address, unchecked: what the host sees (R43). -/
def State.readByte (s : State) (a : Nat) : Byte :=
  Memory.read s.config.font s.mem a

/-- `MemRead(addr, 1)` (R66). -/
def State.memRead (s : State) (a : Nat) : Except FaultKind Byte :=
  if a > 0xFFF then .error .memRange else .ok (s.readByte a)

/-- `MemWrite(addr, 1, v)` (R67). -/
def State.memWrite (s : State) (a : Nat) (b : Byte) : Except FaultKind State :=
  if a > 0xFFF then .error .memRange
  else if a < 0x200 then .error .storeProtect
  else .ok { s with mem := Memory.write s.config.font s.mem a b }

/-- Instruction fetch `MemRead(a, 2)`: two bytes, high byte first, at `a` and `a + 1` as natural numbers
(R64, R68, R105). -/
def State.fetch (s : State) : Except FaultKind Word := do
  let hi ← s.memRead s.pc.toNat
  let lo ← s.memRead (s.pc.toNat + 1)
  return opcodeOfBytes hi lo

/-- Read `n` consecutive bytes, checking the whole span first; with `n = 0` nothing is read (R180, R182, R214). -/
def State.memReadSpan (s : State) (a n : Nat) : Except FaultKind (List Byte) :=
  if n ≥ 1 ∧ a + n - 1 > 0xFFF then .error .memRange
  else .ok (Memory.readSpan s.config.font s.mem a n)

/-- Store consecutive bytes, checking every address before the first write (R67, R212, R213). -/
def State.memWriteSpan (s : State) (a : Nat) (bytes : List Byte) : Except FaultKind State :=
  if a + bytes.length - 1 > 0xFFF then .error .memRange
  else if a < 0x200 then .error .storeProtect
  else .ok { s with mem := Memory.writeSpan s.config.font s.mem a bytes }

/-! Stack (10_state.md). -/

/-- `Push(v)` (R27). -/
def State.push (s : State) (v : Word) : Except FaultKind State :=
  if h : s.sp.val < 48 then
    .ok { s with stack := s.stack.set s.sp.val v, sp := ⟨s.sp.val + 1, by omega⟩ }
  else .error .stackOverflow

/-- `Pop()` (R28): the popped value, with the cell left as it was. -/
def State.pop (s : State) : Except FaultKind (Word × State) :=
  if h : s.sp.val = 0 then .error .stackUnderflow
  else .ok (s.stack[s.sp.val - 1]'(by omega), { s with sp := ⟨s.sp.val - 1, by omega⟩ })

/-! Program counter. During execution it is the fetch address plus 2 (R23). -/

/-- The fetch address of the instruction being executed. -/
def State.fetchAddress (s : State) : Word :=
  s.pc - 2

/-- The decoder's advance, and a taken skip: `pc <- pc +16 2` (R24, R105). -/
def State.advancePc (s : State) : State :=
  { s with pc := s.pc + 2 }

/-- Skip the next instruction if `c` (R130 to R133, R190, R191). -/
def State.skipIf (s : State) (c : Bool) : State :=
  if c then s.advancePc else s

/-! Faults (60_exceptions.md). -/

/-- Fault entry (R236) for a `Tick` that fetched at `a`: all other state as it was, `pc` at the fetch address,
`fault <- (kind, a, opcode)`, `run <- Faulted`. -/
def State.enterFault (s : State) (kind : FaultKind) (a : Word) (opcode : Option Word) : State :=
  { s with pc := a, run := .faulted { kind := kind, pc := a, opcode := opcode } }

/-- The end of an instruction `i` started in `s`: its result, or the fault it raised, entered from `s` so that
nothing the instruction did is kept (R10, R236). -/
def conclude (i : Instr) (s : State) : Except FaultKind State → Host.Outcome State Fault Refusal
  | .ok t => .next t
  | .error k => .next (s.enterFault k s.fetchAddress (some (encode i)))

/-- The numeric code of a fault kind (R230). -/
def faultCode : FaultKind → Nat
  | .unknownOpcode => 1
  | .stackOverflow => 2
  | .stackUnderflow => 3
  | .memRange => 4
  | .storeProtect => 5
  | .keyIndex => 6

/-! Display (20_memory.md R72). -/

/-- The cell of column `c` and row `r`, i.e. `disp[c + r*64]`; false outside the grid. -/
def cellAt (d : Vector (BitVec 64) 32) (c r : Nat) : Bool :=
  (d.getD r 0).getLsbD c

/-- `disp[c + r*64] <- disp[c + r*64] ^ 1`, for `c ≤ 63` and `r ≤ 31`. -/
def toggleCell (d : Vector (BitVec 64) 32) (c r : Nat) : Vector (BitVec 64) 32 :=
  d.setIfInBounds r (d.getD r 0 ^^^ BitVec.twoPow 64 c)

/-- Display cell `c + r*64` of a state. -/
def State.cell (s : State) (c r : Nat) : Bool :=
  cellAt s.disp c r

/-- What the buzzer would show, `ST != 0` (R253; PRESUMED, log 17). -/
def State.buzzer (s : State) : Bool :=
  s.ST != 0

end Sys2Proof.Machine
end

