-- ==== Sys2Proof/Machine/Alu.lean ====
section
/-! DEFINITION. Register-to-register ALU and shifts (43_alu.md). All arithmetic is modulo 256 (R159). The order of
the two register writes decides the result when `X` or `Y` is F (R35; log 12). -/

namespace Sys2Proof.Machine

/-- The shape of `8XY4`, `8XY5`, `8XY7`: VF receives the flag of the entry values, then `x[X]` receives `op` of the
registers as they are after that write (R154, R155, R157). -/
def flagThenResult (flag : Byte → Byte → Bool) (op : Byte → Byte → Byte) (x y : Nibble) (s : State) : State :=
  let t := s.setV regF (flagByte (flag (s.getV x) (s.getV y)))
  t.setV x (op (t.getV x) (t.getV y))

/-- The shape of `8XY6`, `8XYE`: the operand is sampled once, `x[X]` receives the shifted value, then VF the bit that
left (R156, R158). -/
def resultThenFlag (out : Byte → Bool) (op : Byte → Byte) (x y : Nibble) (s : State) : State :=
  let v := s.shiftOperand x y
  (s.setV x (op v)).setV regF (flagByte (out v))

/-- `8XY0` (R150). -/
def execLdReg (x y : Nibble) (s : State) : Host.Outcome State Fault Refusal :=
  .next (s.setV x (s.getV y))

/-- `8XY1` (R151): VF is not cleared. -/
def execOrReg (x y : Nibble) (s : State) : Host.Outcome State Fault Refusal :=
  .next (s.setV x (s.getV x ||| s.getV y))

/-- `8XY2` (R152). -/
def execAndReg (x y : Nibble) (s : State) : Host.Outcome State Fault Refusal :=
  .next (s.setV x (s.getV x &&& s.getV y))

/-- `8XY3` (R153). -/
def execXorReg (x y : Nibble) (s : State) : Host.Outcome State Fault Refusal :=
  .next (s.setV x (s.getV x ^^^ s.getV y))

/-- `8XY4` (R154): VF is the carry. -/
def execAddReg (x y : Nibble) (s : State) : Host.Outcome State Fault Refusal :=
  .next (flagThenResult carryOut (fun a b => a + b) x y s)

/-- `8XY5` (R155): VF is not-borrow. -/
def execSub (x y : Nibble) (s : State) : Host.Outcome State Fault Refusal :=
  .next (flagThenResult (fun a b => notBorrow a b) (fun a b => a - b) x y s)

/-- `8XY6` (R156): logical shift right by one. -/
def execShr (x y : Nibble) (s : State) : Host.Outcome State Fault Refusal :=
  .next (resultThenFlag shiftedOutRight (fun v => v >>> 1) x y s)

/-- `8XY7` (R157): reverse subtract. -/
def execSubn (x y : Nibble) (s : State) : Host.Outcome State Fault Refusal :=
  .next (flagThenResult (fun a b => notBorrow b a) (fun a b => b - a) x y s)

/-- `8XYE` (R158): shift left by one, modulo 256. -/
def execShl (x y : Nibble) (s : State) : Host.Outcome State Fault Refusal :=
  .next (resultThenFlag shiftedOutLeft (fun v => v <<< 1) x y s)

end Sys2Proof.Machine
end

