-- ==== Sys2Proof/Machine/Draw.lean ====
section
/-! DEFINITION. Sprite drawing and collision (45_draw.md). -/

namespace Sys2Proof.Machine

/-- The variables of R180's loop: the display, `coll` and `changed`. -/
structure Canvas where
  disp    : Vector (BitVec 64) 32
  coll    : Bool
  changed : Bool
deriving DecidableEq, Repr

/-- One source bit: column `c` of the sprite byte `b` drawn on display row `row` (R180). Bits outside the grid are
clipped, unset bits do nothing. -/
def drawPixel (xs row : Nat) (b : Byte) (k : Canvas) (c : Nat) : Canvas :=
  if row ≤ 31 ∧ xs + c ≤ 63 ∧ spritePixel b c = true then
    { disp := toggleCell k.disp (xs + c) row
      coll := k.coll || cellAt k.disp (xs + c) row
      changed := true }
  else k

/-- One sprite byte, columns 0..7 (R180). -/
def drawRow (xs row : Nat) (b : Byte) (k : Canvas) : Canvas :=
  (List.range 8).foldl (drawPixel xs row b) k

/-- The sprite bytes, top row first, on display rows `row`, `row + 1`, ... (R180, R181). -/
def drawRows (xs : Nat) : Nat → List Byte → Canvas → Canvas
  | _, [], k => k
  | row, b :: bs, k => drawRows xs (row + 1) bs (drawRow xs row b k)

/-- The effect of a whole sprite (R180): VF is written once, always, after it; `draw_dirty` is set if a cell changed
and never cleared. -/
def State.drawSprite (s : State) (x y : Nibble) (bytes : List Byte) : State :=
  let k := drawRows (s.spriteColumn x) (s.spriteRow y) bytes { disp := s.disp, coll := false, changed := false }
  { s.setV regF (flagByte k.coll) with disp := k.disp, drawDirty := s.drawDirty || k.changed }

/-- `DXYN` (R180): all `N` bytes are read before anything changes, clipped rows included (R182). -/
def execDrw (x y n : Nibble) (s : State) : Host.Outcome State Fault Refusal :=
  conclude (.drw x y n) s do
    let bytes ← s.memReadSpan s.indexAddress n.toNat
    return s.drawSprite x y bytes

end Sys2Proof.Machine
end

