-- ==== Sys2Proof/Machine/Flow.lean ====
section
/-! DEFINITION. Clear screen, return, jump, call (40_screen_return_jump_call.md). In every meaning `pc` has already
been advanced past the instruction (R23, R105). -/

namespace Sys2Proof.Machine

/-- `00E0` (R120): every cell unlit, `draw_dirty` set even when nothing changes. -/
def execCls (_u : Nibble) (s : State) : Host.Outcome State Fault Refusal :=
  .next { s with disp := Vector.replicate 32 0, drawDirty := true }

/-- `00EE` (R121): `pc <- Pop()`. -/
def execRet (u : Nibble) (s : State) : Host.Outcome State Fault Refusal :=
  conclude (.ret u) s do
    let (target, t) ← s.pop
    return { t with pc := target }

/-- `1NNN` (R122). -/
def execJp (nnn : Imm12) (s : State) : Host.Outcome State Fault Refusal :=
  .next { s with pc := jumpTarget nnn }

/-- `2NNN` (R123): push the advanced `pc`, then jump. -/
def execCall (nnn : Imm12) (s : State) : Host.Outcome State Fault Refusal :=
  conclude (.call nnn) s do
    let t ← s.push s.pc
    return { t with pc := jumpTarget nnn }

end Sys2Proof.Machine
end

