-- ==== Sys2Proof/Machine/Immediate.lean ====
section
/-! DEFINITION. Register immediates (42_immediate.md). -/

namespace Sys2Proof.Machine

/-- `6XNN` (R140). -/
def execLdImm (x : Nibble) (nn : Byte) (s : State) : Host.Outcome State Fault Refusal :=
  .next (s.setV x nn)

/-- `7XNN` (R141): modulo 256, no flag. -/
def execAddImm (x : Nibble) (nn : Byte) (s : State) : Host.Outcome State Fault Refusal :=
  .next (s.setV x (s.getV x + nn))

end Sys2Proof.Machine
end

