-- ==== Sys2Proof/Machine/IndexJump.lean ====
section
/-! DEFINITION. Load index, jump with offset, random (44_index_jump_random.md). -/

namespace Sys2Proof.Machine

/-- `ANNN` (R170). -/
def execLdI (nnn : Imm12) (s : State) : Host.Outcome State Fault Refusal :=
  .next { s with I := nnn.setWidth 16 }

/-- `BNNN` (R171): the offset register is always `V0`; no mask to 12 bits. -/
def execJpV0 (nnn : Imm12) (s : State) : Host.Outcome State Fault Refusal :=
  .next { s with pc := s.offsetTarget nnn }

/-- `CXNN` (R172): the random byte of this `Tick` (R39; log 2), masked. -/
def execRnd (x : Nibble) (nn : Byte) (s : State) : Host.Outcome State Fault Refusal :=
  .next (s.setV x (s.env.rnd &&& nn))

end Sys2Proof.Machine
end

