-- ==== Sys2Proof/Machine/IndexMemory.lean ====
section
/-! DEFINITION. Index arithmetic, font address, BCD, register store and load (48_index_memory.md). -/

namespace Sys2Proof.Machine

/-- `FX1E` (R210): modulo 65536, no flag. -/
def execAddI (x : Nibble) (s : State) : Host.Outcome State Fault Refusal :=
  .next { s with I := s.I + (s.getV x).setWidth 16 }

/-- `FX29` (R211). -/
def execLdF (x : Nibble) (s : State) : Host.Outcome State Fault Refusal :=
  .next { s with I := s.glyphAddress x }

/-- `FX33` (R212). -/
def execLdB (x : Nibble) (s : State) : Host.Outcome State Fault Refusal :=
  conclude (.ldB x) s (s.memWriteSpan s.indexAddress (bcdDigits (s.getV x)))

/-- `FX55` (R213). -/
def execStRegs (x : Nibble) (s : State) : Host.Outcome State Fault Refusal :=
  conclude (.stRegs x) s do
    let t ← s.memWriteSpan s.indexAddress (s.registersTo x)
    return t.advanceIndex x

/-- `FX65` (R214). -/
def execLdRegs (x : Nibble) (s : State) : Host.Outcome State Fault Refusal :=
  conclude (.ldRegs x) s do
    let bytes ← s.memReadSpan s.indexAddress (x.toNat + 1)
    return (s.loadRegisters bytes).advanceIndex x

end Sys2Proof.Machine
end

