-- ==== Sys2Proof/Machine/Keys.lean ====
section
/-! DEFINITION. Conditional skips on key state (46_keys.md). -/

namespace Sys2Proof.Machine

/-- The key code in `x[X]`, checked: above 15 raises `KeyIndexFault` (R190, R191, R235). -/
def State.keyCode (s : State) (x : Nibble) : Except FaultKind Nat :=
  if (s.getV x).toNat > 15 then .error .keyIndex else .ok (s.getV x).toNat

/-- `EX9E` (R190). -/
def execSkp (x : Nibble) (s : State) : Host.Outcome State Fault Refusal :=
  conclude (.skp x) s do
    let k ← s.keyCode x
    return s.skipIf (s.keyDown k)

/-- `EXA1` (R191). -/
def execSknp (x : Nibble) (s : State) : Host.Outcome State Fault Refusal :=
  conclude (.sknp x) s do
    let k ← s.keyCode x
    return s.skipIf (!s.keyDown k)

end Sys2Proof.Machine
end

