-- ==== Sys2Proof/Machine/Timers.lean ====
section
/-! DEFINITION. Timer access and key wait (47_timers_keywait.md). -/

namespace Sys2Proof.Machine

/-- `FX07` (R200). -/
def execLdVxDt (x : Nibble) (s : State) : Host.Outcome State Fault Refusal :=
  .next (s.setV x s.DT)

/-- `FX0A` (R201): level-sensitive; with no key down `pc` goes back to this instruction and nothing else changes. -/
def execLdVxK (x : Nibble) (s : State) : Host.Outcome State Fault Refusal :=
  match s.keySelect with
  | none => .next { s with pc := s.pc - 2 }
  | some k => .next (s.setV x (k.setWidth 8))

/-- `FX15` (R202). -/
def execLdDtVx (x : Nibble) (s : State) : Host.Outcome State Fault Refusal :=
  .next { s with DT := s.getV x }

/-- `FX18` (R203). -/
def execLdStVx (x : Nibble) (s : State) : Host.Outcome State Fault Refusal :=
  .next { s with ST := s.getV x }

end Sys2Proof.Machine
end

