-- ==== Sys2Proof/Machine/Events.lean ====
section
/-! DEFINITION. The steps of the timer driver and of the host (60_exceptions.md, 70_reset_and_hazards.md). -/

namespace Sys2Proof.Machine

/-- "if T > 0 then T <- T - 1" (R245). -/
def countDown (t : Byte) : Byte :=
  if t = 0 then 0 else t - 1

/-- `TimerStep` (R245): both timers, nothing else, whatever `run` is. -/
def State.timerStep (s : State) : State :=
  { s with DT := countDown s.DT, ST := countDown s.ST }

/-- `SetKeys(k)` (R249). -/
def State.setKeys (s : State) (k : BitVec 16) : State :=
  { s with keys := k }

/-- `RenderAck` (R251). -/
def State.renderAck (s : State) : State :=
  { s with drawDirty := false }

/-- `Reset` (R270): nothing of the machine survives; the configuration inputs are constant (R38) and the schedule is
not the machine's (log 15). -/
def State.resetEvent (s : State) : State :=
  { State.boot s.config with env := s.env }

/-- `LoadROM(rom)` (R79, R273): allowed once, after `Reset`; no `Tick` comes before it. It bypasses the write
primitive of R67. -/
def State.loadRom (s : State) (rom : List Byte) : Host.Outcome State Fault Refusal :=
  if s.loadOpen = false then .refused .loadTooLate
  else if rom.length > 3584 then .refused (.romTooLarge rom.length)
  else .next { s with mem := Memory.writeSpan s.config.font s.mem 0x200 rom, loadOpen := false }

/-- The host move under `FAULT_POLICY = skip`, for `UnknownOpcodeFault` only: `pc <- fault.pc +16 2; run <- Running`
(R238, U4; log 4). -/
def State.skipFault (s : State) : Host.Outcome State Fault Refusal :=
  match s.config.faultPolicy, s.run with
  | .skip, .faulted r =>
    if r.kind = .unknownOpcode then .next { s with pc := r.pc + 2, run := .running } else .refused .skipNotEnabled
  | .skip, .running => .refused .skipNotEnabled
  | .halt, _ => .refused .skipNotEnabled

end Sys2Proof.Machine
end

