-- ==== Sys2Proof/Machine/Tick.lean ====
section
/-! DEFINITION. The interpreter's step (30_encoding.md R105) and the choice of the next event (00_scope.md R7). -/

namespace Sys2Proof.Machine

/-- The state a `Tick` starts from: its random byte is supplied (R39). -/
def State.openTick (s : State) (rnd : Byte) : State :=
  { s with env := { s.env with rnd := rnd } }

/-- Fetch, dispatch, execute (R105), with the checks in the order of R240: fetch range, then dispatch, then the
instruction's own. `pc` is advanced before the instruction runs. -/
def State.fetchAndExecute (s : State) : Host.Outcome State Fault Refusal :=
  match s.fetch with
  | .error k => .next (s.enterFault k s.pc none)
  | .ok w =>
    match decode w with
    | .error _ => .next (s.enterFault .unknownOpcode s.pc (some w))
    | .ok i => exec i s.advancePc

/-- `Tick(rnd)`, enabled only when `run = Running` (R105, R238) and not before `LoadROM` (R271, R274). -/
def State.tick (s : State) (rnd : Byte) : Host.Outcome State Fault Refusal :=
  match s.run, s.loadOpen with
  | .faulted r, _ => .fault (.halted r)
  | .running, true => .refused .notLoaded
  | .running, false => (s.openTick rnd).fetchAndExecute

/-- One event of the schedule (R7). -/
def State.perform (s : State) : Event → Host.Outcome State Fault Refusal
  | .tick rnd => s.tick rnd
  | .timerStep => .next s.timerStep
  | .setKeys k => .next (s.setKeys k)
  | .renderAck => .next s.renderAck
  | .reset => .next s.resetEvent
  | .loadRom rom => s.loadRom rom
  | .skipFault => s.skipFault

/-- The event at the head of the agenda is taken off it and performed; with an empty agenda the interpreter ticks
with a random byte drawn from the free value (logs 1, 2). -/
def State.nextEvent (s : State) : Host.Outcome State Fault Refusal :=
  match s.env.agenda with
  | e :: rest => State.perform { s with env := { s.env with agenda := rest } } e
  | [] => State.tick { s with env := { s.env with draws := s.env.draws + 1 } } (Config.freeByte s.env.draws)

/-- The address the next instruction is placed at from outside: `pc` where it can be fetched from, else the load
address 0x200 (R271). -/
def State.placementAddress (s : State) : Word :=
  if s.pc.toNat ≤ 0xFFE then s.pc else 0x200

/-- An opcode stored where the next `Tick` fetches it, as a load of it would leave the machine: running, `LoadROM`
over, nothing scheduled before that `Tick` (log 14). -/
def State.placeOpcode (s : State) (w : Word) : State :=
  { s with
    pc       := s.placementAddress
    run      := .running
    mem      := Memory.writeSpan s.config.font s.mem s.placementAddress.toNat [highByte w, lowByte w]
    loadOpen := false
    env      := { s.env with agenda := [] } }

end Sys2Proof.Machine
end

