-- ==== Sys2Proof/Machine/Step.lean ====
section
/-! DEFINITION. The step function: one atomic event (00_scope.md R7). -/

namespace Sys2Proof.Machine

/-- One step of the machine. -/
def step (s : State) : Host.Outcome State Fault Refusal :=
  s.nextEvent

/-- `s` with the instruction of a table word placed where the very next step fetches it. -/
def State.withFetchWord (s : State) (nbits w : Nat) : State :=
  s.placeOpcode (tableOpcode nbits w)

end Sys2Proof.Machine
end

