-- ==== Sys2Proof/Safety.lean ====
section
/-! DEFINITION. The terms claims use: frames, faults, invariants, runs. -/

namespace Sys2Proof.Machine

/-- The parts of the state an instruction may write, other than the general registers. -/
inductive Part where
  | index
  | pc
  | stack
  | delayTimer
  | soundTimer
  | memory
  | display
  | drawDirty
deriving DecidableEq, Repr

/-- Frame: going from `s` to `t`, at most the registers `regs` and the parts `parts` changed; keys, run state,
configuration and environment never did. Memory is compared byte by byte, the display cell by cell. -/
structure State.ChangesOnly (s t : State) (regs : List Nibble) (parts : List Part) : Prop where
  V          : ∀ n, n ∉ regs → t.getV n = s.getV n
  index      : .index ∉ parts → t.I = s.I
  pc         : .pc ∉ parts → t.pc = s.pc
  stack      : .stack ∉ parts → t.stack = s.stack ∧ t.sp = s.sp
  delayTimer : .delayTimer ∉ parts → t.DT = s.DT
  soundTimer : .soundTimer ∉ parts → t.ST = s.ST
  memory     : .memory ∉ parts → ∀ a, t.readByte a = s.readByte a
  display    : .display ∉ parts → ∀ c r, t.cell c r = s.cell c r
  drawDirty  : .drawDirty ∉ parts → t.drawDirty = s.drawDirty
  keys       : t.keys = s.keys
  run        : t.run = s.run
  loadOpen   : t.loadOpen = s.loadOpen
  config     : t.config = s.config
  env        : t.env = s.env

/-- Every opcode with these bits under the mask is the instruction built from its fields: the "match ... under mask
..." line of the instruction's rule. -/
def Selects (mask pattern : Word) (build : OperandRecord → Instr) : Prop :=
  ∀ w : Word, w &&& mask = pattern → decode w = .ok (build (operandRecord w))

/-- `i`, run in `s`, raises `kind`: nothing changes but `pc`, back at the fetch address, and the fault record
(R236). -/
def FaultsWith (i : Instr) (kind : FaultKind) (s : State) : Prop :=
  exec i s = .next { s with
    pc := s.pc - 2
    run := .faulted { kind := kind, pc := s.pc - 2, opcode := some (encode i) } }

/-- The sprite pixel that lands on column `c`, row `r` of the display, of `n` sprite bytes at `I` drawn at
(`x[X] & 63`, `x[Y] & 31`): bit `7 - (c - xs)` of the byte `I + (r - ys)` (R180, R181). -/
def State.SpriteCovers (s : State) (x y : Nibble) (n c r : Nat) : Prop :=
  let xs := (s.getV x).toNat % 64
  let ys := (s.getV y).toNat % 32
  xs ≤ c ∧ c < xs + 8 ∧ ys ≤ r ∧ r < ys + n ∧
    (s.readByte (s.I.toNat + (r - ys))).getLsbD (7 - (c - xs)) = true

/-- Invariant: memory keeps its canonical form and stays inside the 4096-byte space (R60). -/
def State.MemoryCanonical (s : State) : Prop :=
  Memory.wf s.config.font s.mem

/-- Invariant: below 0x200 memory reads as after reset: the fixed font table, then 0x00, "never changed" (R62). -/
def State.LowMemoryFixed (s : State) : Prop :=
  ∀ a, a < 0x200 → s.readByte a = if h : a < 80 then s.config.font[a] else 0

/-- Invariant: `pc` holds at most 0x10FE (R24, R171), and every live stack cell is a return address of a call, at most
0x1000. -/
structure State.PcInRange (s : State) : Prop where
  pc    : s.pc.toNat ≤ 0x10FE
  stack : ∀ k : Fin 48, k.val < s.sp.val → s.stack[k].toNat ≤ 0x1000

/-- Invariant: while `run = Faulted` the record tells the truth about the unchanged state (R230, R236): `pc` is the
fetch address; with no opcode the fetch itself was out of range; with an opcode it is the word at `pc`; an unknown
opcode is one the dispatcher rejects. `LoadROM` is over, so nothing can have changed the word since. -/
def State.FaultTruthful (s : State) : Prop :=
  ∀ r, s.run = .faulted r →
    s.loadOpen = false ∧ s.pc = r.pc ∧
    (r.opcode = none → r.kind = .memRange ∧ 0xFFE < r.pc.toNat) ∧
    (∀ w, r.opcode = some w → r.pc.toNat ≤ 0xFFE ∧ s.fetch = .ok w) ∧
    (r.kind = .unknownOpcode → ∃ w e, r.opcode = some w ∧ decode w = .error e)

/-- States a run can reach. -/
inductive Reachable (s : State) : State → Prop where
  | refl : Reachable s s
  | step {t u : State} : Reachable s t → step t = .next u → Reachable s u

/-- A safe run of `n` steps: each is possible, and the machine is running before and after each. A faulted state is
never part of one (R238). -/
def SafeFor : Nat → State → Prop
  | 0, s => s.run = .running
  | n + 1, s => s.run = .running ∧ ∃ t, step s = .next t ∧ SafeFor n t

/-- The end of a run (R275; log 21): the machine is running and the opcode at `pc` is the self-jump, `1NNN` with
`NNN = pc`. The spec's convention, which no part of the machine detects: a `Tick` goes on from here. A `Faulted` state
is never one. -/
structure State.EndOfRun (s : State) : Prop where
  running  : s.run = .running
  selfJump : ∃ nnn : Imm12, s.pc = jumpTarget nnn ∧ s.fetch = .ok (encode (.jp nnn))

/-- A run of `n` steps from `s` that is safe throughout and has come to its end (R275; log 21). -/
def RunEndsAfter (n : Nat) (s : State) : Prop :=
  SafeFor n s ∧ ∃ t, Sys2Proof.core.run n s = .next t ∧ t.EndOfRun

/-- The required order of host events (R274): "`Reset`, then `LoadROM`, then any mixture of `Tick`, `TimerStep`,
`SetKeys`, `RenderAck`", begun again by a second `Reset` (R270). `awaiting` says that `LoadROM` comes next. An empty
list goes on with Ticks (log 1); the skip move (U4) is not among the events R274 lists. -/
def requiredOrder (awaiting : Bool) : List Event → Bool
  | [] => !awaiting
  | .reset :: rest => requiredOrder true rest
  | .loadRom _ :: rest => awaiting && requiredOrder false rest
  | .tick _ :: rest | .timerStep :: rest | .setKeys _ :: rest | .renderAck :: rest =>
    !awaiting && requiredOrder awaiting rest
  | .skipFault :: _ => false

/-- The schedule ahead keeps the required order (R274), from where `s` stands in it. -/
def State.FollowsRequiredOrder (s : State) : Prop :=
  requiredOrder s.loadOpen s.env.agenda = true

/-- The architectural state: everything but the model's environment. -/
def State.SameMachine (s t : State) : Prop :=
  { t with env := s.env } = s

end Sys2Proof.Machine
end

