-- ==== Sys2Proof/Certificates/Slice0/Obligations.lean ====
section
/-! DEFINITION. The statements for the provers. In every statement about `exec i s`, `s.pc` is the fetch address plus 2
(R23, R105), and `t` is the state after the instruction. That a byte reads back as it was stored is claimed of states
whose memory is in its canonical form, an invariant of every step (`Obligations.StepKeepsMemoryCanonical`). -/

open Sys2Proof Sys2Proof.Machine

/-! ## Encoding -/

/-- Every instruction is read back from its two bytes, whatever bytes follow (R90, R91, R92, R103). That the spellings
with ignored bits are instructions is the spec's decision D10 (log 13). -/
def Obligations.DecodeReadsBackEveryEncoding : Prop :=
  ∀ (i : Instr) (rest : List Byte), decodeBytes (encodeBytes i ++ rest) = .ok (i, rest)

/-- Each opcode has one meaning: encoding what an opcode decodes to gives the opcode back, ignored bits included
(R99, the spec's decision D10; log 13). This is what makes `fault.opcode` the raw 16 bits (R230). -/
def Obligations.EncodeGivesBackTheOpcode : Prop :=
  ∀ (w : Word) (i : Instr), decode w = .ok i → encode i = w

/-- The encoding column of R103's table, for all 34 instructions, as numbers. -/
def Obligations.EncodingsAreTheTables : Prop :=
  ∀ (x y n : Nibble) (nn : Byte) (nnn : Imm12),
    (encode (.cls 0)).toNat = 0x00E0 ∧ (encode (.ret 0)).toNat = 0x00EE ∧
    (encode (.jp nnn)).toNat = 0x1000 + nnn.toNat ∧ (encode (.call nnn)).toNat = 0x2000 + nnn.toNat ∧
    (encode (.seImm x nn)).toNat = 0x3000 + x.toNat * 256 + nn.toNat ∧
    (encode (.sneImm x nn)).toNat = 0x4000 + x.toNat * 256 + nn.toNat ∧
    (encode (.seReg x y 0)).toNat = 0x5000 + x.toNat * 256 + y.toNat * 16 ∧
    (encode (.ldImm x nn)).toNat = 0x6000 + x.toNat * 256 + nn.toNat ∧
    (encode (.addImm x nn)).toNat = 0x7000 + x.toNat * 256 + nn.toNat ∧
    (encode (.ldReg x y)).toNat = 0x8000 + x.toNat * 256 + y.toNat * 16 ∧
    (encode (.orReg x y)).toNat = 0x8001 + x.toNat * 256 + y.toNat * 16 ∧
    (encode (.andReg x y)).toNat = 0x8002 + x.toNat * 256 + y.toNat * 16 ∧
    (encode (.xorReg x y)).toNat = 0x8003 + x.toNat * 256 + y.toNat * 16 ∧
    (encode (.addReg x y)).toNat = 0x8004 + x.toNat * 256 + y.toNat * 16 ∧
    (encode (.sub x y)).toNat = 0x8005 + x.toNat * 256 + y.toNat * 16 ∧
    (encode (.shr x y)).toNat = 0x8006 + x.toNat * 256 + y.toNat * 16 ∧
    (encode (.subn x y)).toNat = 0x8007 + x.toNat * 256 + y.toNat * 16 ∧
    (encode (.shl x y)).toNat = 0x800E + x.toNat * 256 + y.toNat * 16 ∧
    (encode (.sneReg x y 0)).toNat = 0x9000 + x.toNat * 256 + y.toNat * 16 ∧
    (encode (.ldI nnn)).toNat = 0xA000 + nnn.toNat ∧ (encode (.jpV0 nnn)).toNat = 0xB000 + nnn.toNat ∧
    (encode (.rnd x nn)).toNat = 0xC000 + x.toNat * 256 + nn.toNat ∧
    (encode (.drw x y n)).toNat = 0xD000 + x.toNat * 256 + y.toNat * 16 + n.toNat ∧
    (encode (.skp x)).toNat = 0xE09E + x.toNat * 256 ∧ (encode (.sknp x)).toNat = 0xE0A1 + x.toNat * 256 ∧
    (encode (.ldVxDt x)).toNat = 0xF007 + x.toNat * 256 ∧ (encode (.ldVxK x)).toNat = 0xF00A + x.toNat * 256 ∧
    (encode (.ldDtVx x)).toNat = 0xF015 + x.toNat * 256 ∧ (encode (.ldStVx x)).toNat = 0xF018 + x.toNat * 256 ∧
    (encode (.addI x)).toNat = 0xF01E + x.toNat * 256 ∧ (encode (.ldF x)).toNat = 0xF029 + x.toNat * 256 ∧
    (encode (.ldB x)).toNat = 0xF033 + x.toNat * 256 ∧ (encode (.stRegs x)).toNat = 0xF055 + x.toNat * 256 ∧
    (encode (.ldRegs x)).toNat = 0xF065 + x.toNat * 256

/-- An opcode is rejected exactly when R100 calls it unknown, and by the lookup that fails (R100 builds on the ignored
bits of R99, the spec's decision D10). -/
def Obligations.RejectedOpcodesAreTheUnknownOnes : Prop :=
  ∀ w : Word,
    let inst := w.toNat / 0x1000
    let nn := w.toNat % 0x100
    let n := w.toNat % 0x10
    (decode w = .error (.unknown0 w) ↔ inst = 0x0 ∧ nn ∉ [0xE0, 0xEE]) ∧
    (decode w = .error (.unknown8 w) ↔ inst = 0x8 ∧ n ∈ [0x8, 0x9, 0xA, 0xB, 0xC, 0xD, 0xF]) ∧
    (decode w = .error (.unknownE w) ↔ inst = 0xE ∧ nn ∉ [0x9E, 0xA1]) ∧
    (decode w = .error (.unknownF w) ↔
      inst = 0xF ∧ nn ∉ [0x07, 0x0A, 0x15, 0x18, 0x1E, 0x29, 0x33, 0x55, 0x65]) ∧
    (∀ e, decode w = .error e → e = .unknown0 w ∨ e = .unknown8 w ∨ e = .unknownE w ∨ e = .unknownF w)

/-- Words written out from the spec's encodings decode to the instruction they stand for, canonical or not (R99, the
spec's decision D10, and the table of 95_test_vectors.md 2.1). -/
def Obligations.WrittenOutWordsDecode : Prop :=
  decode 0x00E0 = .ok (.cls 0x0) ∧ decode 0x01E0 = .ok (.cls 0x1) ∧ decode 0x0FEE = .ok (.ret 0xF) ∧
  decode 0x5121 = .ok (.seReg 0x1 0x2 0x1) ∧ decode 0x912F = .ok (.sneReg 0x1 0x2 0xF) ∧
  decode 0x8AB4 = .ok (.addReg 0xA 0xB) ∧ decode 0xBFFF = .ok (.jpV0 0xFFF) ∧
  decode 0xD01F = .ok (.drw 0x0 0x1 0xF) ∧ decode 0xF055 = .ok (.stRegs 0x0) ∧
  decode 0x0000 = .error (.unknown0 0x0000) ∧ decode 0x8128 = .error (.unknown8 0x8128) ∧
  decode 0xE19F = .error (.unknownE 0xE19F) ∧ decode 0xF175 = .error (.unknownF 0xF175)

/-! ## Screen, return, jump, call -/

/-- `00E0` (40_screen_return_jump_call.md R120). That the `X` nibble is ignored is the spec's decision D10 (log 13).
-/
def Obligations.ClsClearsEveryCell : Prop :=
  Selects 0xF0FF 0x00E0 (fun f => .cls f.x) ∧
  ∀ (u : Nibble) (s : State), ∃ t, exec (.cls u) s = .next t ∧
    (∀ c r, t.cell c r = false) ∧ t.drawDirty = true ∧ s.ChangesOnly t [] [.display, .drawDirty]

/-- `00EE` (40_screen_return_jump_call.md R121); the stack cells keep their values. What a fault leaves is the spec's
decisions D2, D3 (log 3). -/
def Obligations.RetPopsTheReturnAddress : Prop :=
  Selects 0xF0FF 0x00EE (fun f => .ret f.x) ∧
  ∀ (u : Nibble) (s : State),
    (∀ k : Fin 48, s.sp.val = k.val + 1 → ∃ t, exec (.ret u) s = .next t ∧
      t.pc = s.stack[k] ∧ t.sp.val = k.val ∧ t.stack = s.stack ∧ s.ChangesOnly t [] [.pc, .stack]) ∧
    (s.sp.val = 0 → FaultsWith (.ret u) .stackUnderflow s)

/-- R122: `1NNN`. -/
def Obligations.JpJumps : Prop :=
  Selects 0xF000 0x1000 (fun f => .jp f.nnn) ∧
  ∀ (nnn : Imm12) (s : State), ∃ t, exec (.jp nnn) s = .next t ∧
    t.pc.toNat = nnn.toNat ∧ s.ChangesOnly t [] [.pc]

/-- `2NNN` (40_screen_return_jump_call.md R123); with 48 live cells it faults, with fewer it completes. What a fault
leaves is the spec's decisions D2, D3 (log 3). -/
def Obligations.CallPushesAndJumps : Prop :=
  Selects 0xF000 0x2000 (fun f => .call f.nnn) ∧
  ∀ (nnn : Imm12) (s : State),
    (∀ k : Fin 48, s.sp.val = k.val → ∃ t, exec (.call nnn) s = .next t ∧
      t.pc.toNat = nnn.toNat ∧ t.sp.val = k.val + 1 ∧ t.stack[k] = s.pc ∧
      (∀ j : Fin 48, j ≠ k → t.stack[j] = s.stack[j]) ∧ s.ChangesOnly t [] [.pc, .stack]) ∧
    (s.sp.val = 48 → FaultsWith (.call nnn) .stackOverflow s)

/-- `00EE` after `2NNN` returns to the instruction after the call, whatever happened to anything but the stack in
between (R121, R123; 95_test_vectors.md E8). -/
def Obligations.ReturnUndoesCall : Prop :=
  ∀ (nnn : Imm12) (u : Nibble) (s t v : State), s.sp.val < 48 → exec (.call nnn) s = .next t →
    v.stack = t.stack → v.sp = t.sp →
    ∃ w, exec (.ret u) v = .next w ∧ w.pc = s.pc ∧ w.sp = s.sp ∧ w.run = v.run

/-! ## Skips -/

/-- R130, R131: the skips on a register and an immediate. -/
def Obligations.ImmediateSkips : Prop :=
  Selects 0xF000 0x3000 (fun f => .seImm f.x f.nn) ∧ Selects 0xF000 0x4000 (fun f => .sneImm f.x f.nn) ∧
  ∀ (x : Nibble) (nn : Byte) (s : State),
    (∃ t, exec (.seImm x nn) s = .next t ∧
      t.pc = (if s.getV x = nn then s.pc + 2 else s.pc) ∧ s.ChangesOnly t [] [.pc]) ∧
    (∃ t, exec (.sneImm x nn) s = .next t ∧
      t.pc = (if s.getV x = nn then s.pc else s.pc + 2) ∧ s.ChangesOnly t [] [.pc])

/-- `5XY0`, `9XY0` (41_skips.md R132, R133). That the `N` nibble is ignored is the spec's decision D10 (log 13). -/
def Obligations.RegisterSkips : Prop :=
  Selects 0xF000 0x5000 (fun f => .seReg f.x f.y f.n) ∧ Selects 0xF000 0x9000 (fun f => .sneReg f.x f.y f.n) ∧
  ∀ (x y u : Nibble) (s : State),
    (∃ t, exec (.seReg x y u) s = .next t ∧
      t.pc = (if s.getV x = s.getV y then s.pc + 2 else s.pc) ∧ s.ChangesOnly t [] [.pc]) ∧
    (∃ t, exec (.sneReg x y u) s = .next t ∧
      t.pc = (if s.getV x = s.getV y then s.pc else s.pc + 2) ∧ s.ChangesOnly t [] [.pc])

/-- `EX9E`, `EXA1` (46_keys.md). That a key code above 15 faults rests on the spec's decision D15 (R190, R235); what the
fault leaves is the spec's decisions D2, D3 (log 3). -/
def Obligations.KeySkips : Prop :=
  Selects 0xF0FF 0xE09E (fun f => .skp f.x) ∧ Selects 0xF0FF 0xE0A1 (fun f => .sknp f.x) ∧
  ∀ (x : Nibble) (s : State),
    ((s.getV x).toNat ≤ 15 →
      (∃ t, exec (.skp x) s = .next t ∧
        t.pc = (if s.keys.getLsbD (s.getV x).toNat then s.pc + 2 else s.pc) ∧ s.ChangesOnly t [] [.pc]) ∧
      (∃ t, exec (.sknp x) s = .next t ∧
        t.pc = (if s.keys.getLsbD (s.getV x).toNat then s.pc else s.pc + 2) ∧ s.ChangesOnly t [] [.pc])) ∧
    (15 < (s.getV x).toNat → FaultsWith (.skp x) .keyIndex s ∧ FaultsWith (.sknp x) .keyIndex s)

/-! ## Immediates and ALU -/

/-- R140, R141: `6XNN`, `7XNN`. -/
def Obligations.ImmediateLoadAndAdd : Prop :=
  Selects 0xF000 0x6000 (fun f => .ldImm f.x f.nn) ∧ Selects 0xF000 0x7000 (fun f => .addImm f.x f.nn) ∧
  ∀ (x : Nibble) (nn : Byte) (s : State),
    (∃ t, exec (.ldImm x nn) s = .next t ∧ t.getV x = nn ∧ s.ChangesOnly t [x] []) ∧
    (∃ t, exec (.addImm x nn) s = .next t ∧
      (t.getV x).toNat = ((s.getV x).toNat + nn.toNat) % 256 ∧ s.ChangesOnly t [x] [])

/-- R150: `8XY0`; VF is written only as `X`. -/
def Obligations.RegisterCopy : Prop :=
  Selects 0xF00F 0x8000 (fun f => .ldReg f.x f.y) ∧
  ∀ (x y : Nibble) (s : State), ∃ t, exec (.ldReg x y) s = .next t ∧ t.getV x = s.getV y ∧ s.ChangesOnly t [x] []

/-- `8XY1`, `8XY2`, `8XY3` (43_alu.md). That VF is not cleared is an inference the spec marks as its own in R151, to
which R152 and R153 refer. -/
def Obligations.BitwiseOperations : Prop :=
  Selects 0xF00F 0x8001 (fun f => .orReg f.x f.y) ∧ Selects 0xF00F 0x8002 (fun f => .andReg f.x f.y) ∧
  Selects 0xF00F 0x8003 (fun f => .xorReg f.x f.y) ∧
  ∀ (x y : Nibble) (s : State),
    (∃ t, exec (.orReg x y) s = .next t ∧
      (∀ b, (t.getV x).getLsbD b = ((s.getV x).getLsbD b || (s.getV y).getLsbD b)) ∧ s.ChangesOnly t [x] []) ∧
    (∃ t, exec (.andReg x y) s = .next t ∧
      (∀ b, (t.getV x).getLsbD b = ((s.getV x).getLsbD b && (s.getV y).getLsbD b)) ∧ s.ChangesOnly t [x] []) ∧
    (∃ t, exec (.xorReg x y) s = .next t ∧
      (∀ b, (t.getV x).getLsbD b = Bool.xor ((s.getV x).getLsbD b) ((s.getV y).getLsbD b)) ∧ s.ChangesOnly t [x] [])

/-- `8XY4` (43_alu.md). The cases with `X = F` or `Y = F` rest on the spec's decision D11 (log 12). -/
def Obligations.AddRegSumAndCarry : Prop :=
  Selects 0xF00F 0x8004 (fun f => .addReg f.x f.y) ∧
  ∀ (x y : Nibble) (s : State), ∃ t, exec (.addReg x y) s = .next t ∧ s.ChangesOnly t [x, 0xF] [] ∧
    let a := (s.getV x).toNat
    let b := (s.getV y).toNat
    let f := if a + b > 255 then 1 else 0
    (x ≠ 0xF → y ≠ 0xF → (t.getV x).toNat = (a + b) % 256 ∧ (t.getV 0xF).toNat = f) ∧
    (x = 0xF → y ≠ 0xF → (t.getV 0xF).toNat = (f + b) % 256) ∧
    (x ≠ 0xF → y = 0xF → (t.getV x).toNat = (a + f) % 256 ∧ (t.getV 0xF).toNat = f) ∧
    (x = 0xF → y = 0xF → (t.getV 0xF).toNat = 2 * f)

/-- `8XY5` (43_alu.md). The cases with `X = F` or `Y = F` rest on the spec's decision D11 (log 12). -/
def Obligations.SubDifferenceAndNotBorrow : Prop :=
  Selects 0xF00F 0x8005 (fun f => .sub f.x f.y) ∧
  ∀ (x y : Nibble) (s : State), ∃ t, exec (.sub x y) s = .next t ∧ s.ChangesOnly t [x, 0xF] [] ∧
    let a := (s.getV x).toNat
    let b := (s.getV y).toNat
    let f := if b ≤ a then 1 else 0
    (x ≠ 0xF → y ≠ 0xF → (t.getV x).toNat = (a + 256 - b) % 256 ∧ (t.getV 0xF).toNat = f) ∧
    (x = 0xF → y ≠ 0xF → (t.getV 0xF).toNat = (f + 256 - b) % 256) ∧
    (x ≠ 0xF → y = 0xF → (t.getV x).toNat = (a + 256 - f) % 256 ∧ (t.getV 0xF).toNat = f) ∧
    (x = 0xF → y = 0xF → (t.getV 0xF).toNat = 0)

/-- `8XY7` (43_alu.md). The cases with `X = F` or `Y = F` rest on the spec's decision D11 (log 12). -/
def Obligations.SubnReverseDifferenceAndNotBorrow : Prop :=
  Selects 0xF00F 0x8007 (fun f => .subn f.x f.y) ∧
  ∀ (x y : Nibble) (s : State), ∃ t, exec (.subn x y) s = .next t ∧ s.ChangesOnly t [x, 0xF] [] ∧
    let a := (s.getV x).toNat
    let b := (s.getV y).toNat
    let f := if a ≤ b then 1 else 0
    (x ≠ 0xF → y ≠ 0xF → (t.getV x).toNat = (b + 256 - a) % 256 ∧ (t.getV 0xF).toNat = f) ∧
    (x = 0xF → y ≠ 0xF → (t.getV 0xF).toNat = (b + 256 - f) % 256) ∧
    (x ≠ 0xF → y = 0xF → (t.getV x).toNat = (f + 256 - a) % 256 ∧ (t.getV 0xF).toNat = f) ∧
    (x = 0xF → y = 0xF → (t.getV 0xF).toNat = 0)

/-- `8XY6`, `8XYE` (43_alu.md), under both settings of `QUIRK_SHIFT`. That the flag survives for `X = F` rests on the
spec's decision D12 (log 12). -/
def Obligations.ShiftsByOne : Prop :=
  Selects 0xF00F 0x8006 (fun f => .shr f.x f.y) ∧ Selects 0xF00F 0x800E (fun f => .shl f.x f.y) ∧
  ∀ (x y : Nibble) (s : State),
    let v := (if s.config.quirkShift then s.getV x else s.getV y).toNat
    (∃ t, exec (.shr x y) s = .next t ∧ s.ChangesOnly t [x, 0xF] [] ∧
      (x ≠ 0xF → (t.getV x).toNat = v / 2) ∧ (t.getV 0xF).toNat = v % 2) ∧
    (∃ t, exec (.shl x y) s = .next t ∧ s.ChangesOnly t [x, 0xF] [] ∧
      (x ≠ 0xF → (t.getV x).toNat = 2 * v % 256) ∧ (t.getV 0xF).toNat = v / 128)

/-! ## Index, jump with offset, random -/

/-- R170, R211: `ANNN`, `FX29`. -/
def Obligations.IndexLoads : Prop :=
  Selects 0xF000 0xA000 (fun f => .ldI f.nnn) ∧ Selects 0xF0FF 0xF029 (fun f => .ldF f.x) ∧
  ∀ (nnn : Imm12) (x : Nibble) (s : State),
    (∃ t, exec (.ldI nnn) s = .next t ∧ t.I.toNat = nnn.toNat ∧ s.ChangesOnly t [] [.index]) ∧
    (∃ t, exec (.ldF x) s = .next t ∧ t.I.toNat = 5 * ((s.getV x).toNat % 16) ∧ s.ChangesOnly t [] [.index])

/-- `BNNN`, `FX1E` (44_index_jump_random.md, 48_index_memory.md). That neither result is reduced to 12 bits, and that
`I` wraps at 65536, is the spec's decision D22. -/
def Obligations.OffsetJumpAndIndexAdd : Prop :=
  Selects 0xF000 0xB000 (fun f => .jpV0 f.nnn) ∧ Selects 0xF0FF 0xF01E (fun f => .addI f.x) ∧
  ∀ (nnn : Imm12) (x : Nibble) (s : State),
    (∃ t, exec (.jpV0 nnn) s = .next t ∧ t.pc.toNat = nnn.toNat + (s.getV 0x0).toNat ∧ s.ChangesOnly t [] [.pc]) ∧
    (∃ t, exec (.addI x) s = .next t ∧ t.I.toNat = (s.I.toNat + (s.getV x).toNat) % 65536 ∧
      s.ChangesOnly t [] [.index])

/-- `CXNN`: the random byte of this `Tick`, masked, for every value of it (the spec's decision D17; log 2). -/
def Obligations.RandomByteIsMasked : Prop :=
  Selects 0xF000 0xC000 (fun f => .rnd f.x f.nn) ∧
  ∀ (x : Nibble) (nn : Byte) (s : State), ∃ t, exec (.rnd x nn) s = .next t ∧
    t.getV x = s.env.rnd &&& nn ∧ s.ChangesOnly t [x] []

/-! ## Drawing -/

/-- `DXYN` (45_draw.md): the display after a draw is the display before, exclusive-or the sprite clipped to the grid,
cell by cell; VF says whether a lit cell was turned off, `draw_dirty` is set when a cell changed; the draw faults
exactly when a sprite byte lies above 0xFFF (decision D5), clipped rows included. Bit order and the reading of clipped
rows are the spec's decision D13 (log 7); what the fault leaves, `pc` at the fetch address in a next state, is the
spec's decisions D2, D3 (log 3). -/
def Obligations.DrawIsClippedExclusiveOr : Prop :=
  Selects 0xF000 0xD000 (fun f => .drw f.x f.y f.n) ∧
  ∀ (x y n : Nibble) (s : State),
    (n.toNat = 0 ∨ s.I.toNat + n.toNat - 1 ≤ 0xFFF →
      ∃ t, exec (.drw x y n) s = .next t ∧ s.ChangesOnly t [0xF] [.display, .drawDirty] ∧
        (∀ c r, c < 64 → r < 32 →
          (t.cell c r = true ↔ ¬ (s.cell c r = true ↔ s.SpriteCovers x y n.toNat c r))) ∧
        (t.getV 0xF = 0 ∨ t.getV 0xF = 1) ∧
        (t.getV 0xF = 1 ↔ ∃ c r, c < 64 ∧ r < 32 ∧ s.cell c r = true ∧ s.SpriteCovers x y n.toNat c r) ∧
        (t.drawDirty = true ↔ s.drawDirty = true ∨ ∃ c r, c < 64 ∧ r < 32 ∧ s.SpriteCovers x y n.toNat c r)) ∧
    (1 ≤ n.toNat → 0xFFF < s.I.toNat + n.toNat - 1 → FaultsWith (.drw x y n) .memRange s)

/-- Drawing the same sprite twice at the same place restores the display; the second draw collides exactly when the
first one lit a cell, which on an unlit place is when the sprite has a set bit inside the grid (45_draw.md R183 (a),
log 19). Between the draws anything may change but the display and what the sprite is read
from. -/
def Obligations.DrawingTwiceErases : Prop :=
  ∀ (x y n : Nibble) (s t u v : State), s.run = .running →
    exec (.drw x y n) s = .next t → t.run = .running →
    u.disp = t.disp → u.I = s.I → u.getV x = s.getV x → u.getV y = s.getV y →
    (∀ a, u.readByte a = s.readByte a) →
    exec (.drw x y n) u = .next v →
    (∀ c r, c < 64 → r < 32 → v.cell c r = s.cell c r) ∧
    (v.getV 0xF = 1 ↔ ∃ c r, c < 64 ∧ r < 32 ∧ s.cell c r = false ∧ s.SpriteCovers x y n.toNat c r)

/-! ## Timers and key wait -/

/-- R200: `FX07` reads the value `DT` has when it runs, and `DT` keeps it. -/
def Obligations.DelayTimerIsRead : Prop :=
  Selects 0xF0FF 0xF007 (fun f => .ldVxDt f.x) ∧
  ∀ (x : Nibble) (s : State), ∃ t, exec (.ldVxDt x) s = .next t ∧ t.getV x = s.DT ∧ s.ChangesOnly t [x] []

/-- `FX15`, `FX18` (47_timers_keywait.md R202, R203): the old value is replaced. -/
def Obligations.TimersAreSet : Prop :=
  Selects 0xF0FF 0xF015 (fun f => .ldDtVx f.x) ∧ Selects 0xF0FF 0xF018 (fun f => .ldStVx f.x) ∧
  ∀ (x : Nibble) (s : State),
    (∃ t, exec (.ldDtVx x) s = .next t ∧ t.DT = s.getV x ∧ s.ChangesOnly t [] [.delayTimer]) ∧
    (∃ t, exec (.ldStVx x) s = .next t ∧ t.ST = s.getV x ∧ s.ChangesOnly t [] [.soundTimer])

/-- `FX0A` (47_timers_keywait.md R201), for every parameter `KEY_SELECT` (00_scope.md R6; log 11). With every key up,
`pc` goes back to the fetch address and nothing else changes; else the instruction completes with the code of a key
that is down: by the default parameter the lowest, the spec's decision D14, and else the one the parameter gives for
this key vector. No choice is left out: every function from non-zero key vectors to the code of a key that is down is
what `FX0A` stores under some parameter. -/
def Obligations.KeyWaitStoresTheSelectedKey : Prop :=
  Selects 0xF0FF 0xF00A (fun f => .ldVxK f.x) ∧
  (∀ (x : Nibble) (s : State),
    ((∀ k, k < 16 → s.keys.getLsbD k = false) → exec (.ldVxK x) s = .next { s with pc := s.pc - 2 }) ∧
    (∀ k, k < 16 → s.keys.getLsbD k = true →
      ∃ t, exec (.ldVxK x) s = .next t ∧ (t.getV x).toNat < 16 ∧ s.keys.getLsbD (t.getV x).toNat = true ∧
        (s.config.keySelect = [] → ∀ j, j < (t.getV x).toNat → s.keys.getLsbD j = false) ∧
        (∀ c, s.config.keySelect.lookup s.keys = some c → s.keys.getLsbD c.toNat = true →
          (t.getV x).toNat = c.toNat) ∧
        s.ChangesOnly t [x] [])) ∧
  ∀ f : BitVec 16 → Nibble, (∀ v : BitVec 16, v ≠ 0 → v.getLsbD (f v).toNat = true) →
    ∃ table : KeyTable, ∀ (x : Nibble) (s : State), s.config.keySelect = table → s.keys ≠ 0 →
      exec (.ldVxK x) s = .next (s.setV x ((f s.keys).setWidth 8))

/-! ## Index and memory -/

/-- `FX33` (48_index_memory.md R212). The bytes stored to are `I`, `I+1`, `I+2`. The two faults are the spec's decisions
D5 and D7; what they leave, `pc` at the fetch address in a next state, is the spec's decisions D2, D3 (log 3). -/
def Obligations.BcdIsStored : Prop :=
  Selects 0xF0FF 0xF033 (fun f => .ldB f.x) ∧
  ∀ (x : Nibble) (s : State),
    let v := (s.getV x).toNat
    (0x200 ≤ s.indexAddress → s.indexAddress + 2 ≤ 0xFFF → ∃ t, exec (.ldB x) s = .next t ∧
      (s.MemoryCanonical →
        (t.readByte s.indexAddress).toNat = v / 100 ∧
        (t.readByte (s.indexAddress + 1)).toNat = v / 10 % 10 ∧
        (t.readByte (s.indexAddress + 2)).toNat = v % 10) ∧
      (∀ a, a < s.indexAddress ∨ s.indexAddress + 2 < a → t.readByte a = s.readByte a) ∧
      s.ChangesOnly t [] [.memory]) ∧
    (0xFFF < s.indexAddress + 2 → FaultsWith (.ldB x) .memRange s) ∧
    (s.indexAddress < 0x200 → FaultsWith (.ldB x) .storeProtect s)

/-- `FX55` (48_index_memory.md R213). The bytes stored to are `I`, ..., `I + X`, `I` as it was before its advance. The
two faults are the spec's decisions D5 and D7; what they leave, `pc` at the fetch address in a next state, is the spec's
decisions D2, D3 (log 3). -/
def Obligations.RegistersAreStored : Prop :=
  Selects 0xF0FF 0xF055 (fun f => .stRegs f.x) ∧
  ∀ (x : Nibble) (s : State),
    (0x200 ≤ s.indexAddress → s.indexAddress + x.toNat ≤ 0xFFF → ∃ t, exec (.stRegs x) s = .next t ∧
      (s.MemoryCanonical →
        ∀ k : Nibble, k.toNat ≤ x.toNat → t.readByte (s.indexAddress + k.toNat) = s.getV k) ∧
      (∀ a, a < s.indexAddress ∨ s.indexAddress + x.toNat < a → t.readByte a = s.readByte a) ∧
      (s.config.quirkIndex = false → t.I = s.I) ∧
      (s.config.quirkIndex = true → t.I.toNat = s.I.toNat + x.toNat + 1) ∧
      s.ChangesOnly t [] [.memory, .index]) ∧
    (0xFFF < s.indexAddress + x.toNat → FaultsWith (.stRegs x) .memRange s) ∧
    (s.indexAddress < 0x200 → FaultsWith (.stRegs x) .storeProtect s)

/-- `FX65` (48_index_memory.md R214). Memory is not changed; reads below 0x200 are allowed. The fault is the spec's
decision D5; what it leaves, `pc` at the fetch address in a next state, is the spec's decisions D2, D3 (log 3). -/
def Obligations.RegistersAreLoaded : Prop :=
  Selects 0xF0FF 0xF065 (fun f => .ldRegs f.x) ∧
  ∀ (x : Nibble) (s : State),
    (s.indexAddress + x.toNat ≤ 0xFFF → ∃ t, exec (.ldRegs x) s = .next t ∧
      (∀ k : Nibble, k.toNat ≤ x.toNat → t.getV k = s.readByte (s.indexAddress + k.toNat)) ∧
      (∀ k : Nibble, x.toNat < k.toNat → t.getV k = s.getV k) ∧
      (s.config.quirkIndex = false → t.I = s.I) ∧
      (s.config.quirkIndex = true → t.I.toNat = s.I.toNat + x.toNat + 1) ∧
      s.ChangesOnly t ((List.range (x.toNat + 1)).map (BitVec.ofNat 4)) [.index]) ∧
    (0xFFF < s.indexAddress + x.toNat → FaultsWith (.ldRegs x) .memRange s)

/-- `FX55` then `FX65` with the same `X` and `I` restores `V0`..`VX`, whatever happened to the registers in between,
under either setting of `QUIRK_INDEX` (R213, R214; 95_test_vectors.md E9). -/
def Obligations.StoreThenLoadRestoresRegisters : Prop :=
  ∀ (x : Nibble) (s t u : State), s.MemoryCanonical → 0x200 ≤ s.indexAddress → s.indexAddress + x.toNat ≤ 0xFFF →
    exec (.stRegs x) s = .next t → u.mem = t.mem → u.config = t.config → u.I = s.I →
    ∃ v, exec (.ldRegs x) u = .next v ∧ ∀ k : Nibble, k.toNat ≤ x.toNat → v.getV k = s.getV k

/-- A store is seen by the very next fetch, the instruction after the store included (20_memory.md R77, R64): if
`FX55` stores `x[k]` and `x[k+1]` at `pc` and `pc + 1`, the next opcode is `x[k] ## x[k+1]`. -/
def Obligations.StoredBytesAreFetchedNext : Prop :=
  ∀ (x k : Nibble) (s t : State), s.MemoryCanonical → s.run = .running → exec (.stRegs x) s = .next t →
    t.run = .running → k.toNat + 1 ≤ x.toNat → s.pc.toNat = s.indexAddress + k.toNat →
    t.fetch = .ok (s.getV k ++ s.getV (k + 1))

/-! ## Rules over all instructions -/

/-- An instruction's rule always has an outcome state: its result, or the fault it enters (R10, R236; log 3). -/
def Obligations.EveryInstructionHasANextState : Prop :=
  ∀ (i : Instr) (s : State), ∃ t, exec i s = .next t

/-- Faults are precise (60_exceptions.md R236; the value of `pc` is the spec's decision D3): an instruction that ends
`Faulted` changed nothing but `pc` and the record, which holds the fetch address and the raw opcode. -/
def Obligations.InstructionFaultsArePrecise : Prop :=
  ∀ (i : Instr) (s t : State), s.run = .running → exec i s = .next t → t.run ≠ .running →
    ∃ kind, t = { s with
      pc := s.pc - 2
      run := .faulted { kind := kind, pc := s.pc - 2, opcode := some (encode i) } }

/-- Which instruction raises which fault, and when (60_exceptions.md R230, R240); every other case completes. The
conditions of the last three kinds are the spec's decisions D5, D7, D15; that a fault is entered in a next state is the
spec's decision D2 (log 3). -/
def Obligations.FaultConditions : Prop :=
  ∀ (i : Instr) (s t : State), s.run = .running → exec i s = .next t →
    let raised := fun kind => ∃ r, t.run = .faulted r ∧ r.kind = kind
    (¬ raised .unknownOpcode) ∧
    (raised .stackOverflow ↔ (∃ nnn, i = .call nnn) ∧ s.sp.val = 48) ∧
    (raised .stackUnderflow ↔ (∃ u, i = .ret u) ∧ s.sp.val = 0) ∧
    (raised .memRange ↔
      (∃ x y n, i = .drw x y n ∧ 1 ≤ n.toNat ∧ 0xFFF < s.I.toNat + n.toNat - 1) ∨
      (∃ x, i = .ldB x ∧ 0xFFF < s.I.toNat + 2) ∨
      (∃ x, (i = .stRegs x ∨ i = .ldRegs x) ∧ 0xFFF < s.I.toNat + x.toNat)) ∧
    (raised .storeProtect ↔ (∃ x, i = .ldB x ∨ i = .stRegs x) ∧ s.I.toNat < 0x200) ∧
    (raised .keyIndex ↔ ∃ x, (i = .skp x ∨ i = .sknp x) ∧ 15 < (s.getV x).toNat)

/-- VF is written implicitly by six classes and by no other instruction (10_state.md R35): any other instruction that
does not name F as `X`, and is not `FX65` up to F, leaves it. -/
def Obligations.OnlySixClassesWriteTheFlag : Prop :=
  ∀ (i : Instr) (s t : State), exec i s = .next t → t.getV 0xF ≠ s.getV 0xF →
    (∃ x y, i = .addReg x y ∨ i = .sub x y ∨ i = .subn x y ∨ i = .shr x y ∨ i = .shl x y) ∨
    (∃ x y n, i = .drw x y n) ∨
    (∃ nn, i = .ldImm 0xF nn ∨ i = .addImm 0xF nn ∨ i = .rnd 0xF nn) ∨
    (∃ y, i = .ldReg 0xF y ∨ i = .orReg 0xF y ∨ i = .andReg 0xF y ∨ i = .xorReg 0xF y) ∨
    i = .ldVxDt 0xF ∨ i = .ldVxK 0xF ∨ i = .ldRegs 0xF

/-- Who writes the index register, the stack, the timers and memory (10_state.md R22, R26, R29, R37; 20_memory.md
R69): no other instruction does. That no byte below 0x200 changes is the spec's decision D7, and that none above 0xFFF
does is D5 (log 20). -/
def Obligations.OnlyTheirWritersChangeSpecialState : Prop :=
  ∀ (i : Instr) (s t : State), exec i s = .next t →
    (t.I ≠ s.I → (∃ nnn, i = .ldI nnn) ∨ (∃ x, i = .addI x ∨ i = .ldF x) ∨
      ((∃ x, i = .stRegs x ∨ i = .ldRegs x) ∧ s.config.quirkIndex = true)) ∧
    (t.stack ≠ s.stack → ∃ nnn, i = .call nnn) ∧
    (t.sp ≠ s.sp → (∃ nnn, i = .call nnn) ∨ ∃ u, i = .ret u) ∧
    (t.DT ≠ s.DT → ∃ x, i = .ldDtVx x) ∧
    (t.ST ≠ s.ST → ∃ x, i = .ldStVx x) ∧
    (∀ a, t.readByte a ≠ s.readByte a → 0x200 ≤ a ∧ a ≤ 0xFFF ∧ ∃ x, i = .ldB x ∨ i = .stRegs x)

/-- Which instructions write `pc` after the fetch advance (10_state.md R24); an instruction that faults puts it back
at the fetch address. -/
def Obligations.OnlyControlFlowWritesPc : Prop :=
  ∀ (i : Instr) (s t : State), s.run = .running → exec i s = .next t → t.pc ≠ s.pc → t.run = .running →
    (∃ u, i = .ret u) ∨ (∃ nnn, i = .jp nnn ∨ i = .call nnn ∨ i = .jpV0 nnn) ∨
    (((∃ x nn, i = .seImm x nn ∨ i = .sneImm x nn) ∨ (∃ x y u, i = .seReg x y u ∨ i = .sneReg x y u) ∨
      (∃ x, i = .skp x ∨ i = .sknp x)) ∧ t.pc = s.pc + 2) ∨
    ((∃ x, i = .ldVxK x) ∧ t.pc = s.pc - 2)

/-- What no instruction touches (10_state.md R32, R33, R38, R43): the key latch, the configuration inputs and the
environment; `draw_dirty` is only ever set, by `00E0` and `DXYN`, and only they change the display. -/
def Obligations.InstructionsOnlyReadInputs : Prop :=
  ∀ (i : Instr) (s t : State), exec i s = .next t →
    t.keys = s.keys ∧ t.config = s.config ∧ t.env = s.env ∧ t.loadOpen = s.loadOpen ∧
    (s.drawDirty = true → t.drawDirty = true) ∧
    (t.drawDirty ≠ s.drawDirty ∨ t.disp ≠ s.disp → (∃ u, i = .cls u) ∨ ∃ x y n, i = .drw x y n)

/-- The random byte of a `Tick` is read by `CXNN` alone (44_index_jump_random.md R172: a `Tick` that executes any
other instruction ignores it; the input itself is the spec's decision D17). -/
def Obligations.OnlyRndReadsTheRandomByte : Prop :=
  ∀ (i : Instr) (s t : State) (r : Byte), (∀ x nn, i ≠ .rnd x nn) → exec i s = .next t →
    exec i { s with env := { s.env with rnd := r } } = .next { t with env := { t.env with rnd := r } }

/-- No instruction reads `ST` or `draw_dirty` (10_state.md R29, R32): started with other values of them, it does the
same to everything else. -/
def Obligations.OutputsAreNeverRead : Prop :=
  ∀ (i : Instr) (s t : State) (st : Byte) (dirty : Bool), exec i s = .next t →
    ∃ u, exec i { s with ST := st, drawDirty := dirty } = .next u ∧ { u with ST := t.ST, drawDirty := t.drawDirty } = t

/-! ## The Tick cycle and the events -/

/-- A step with a `Tick` at the head of the agenda (or, with an empty agenda, a `Tick` whose random byte is drawn from
the free value; logs 1, 2), in a running machine whose `LoadROM` is over, runs the instruction at `pc`, in the state
with `pc` advanced by 2 and the random byte supplied (30_encoding.md R105). Holds for every instruction, canonical or
not. -/
def Obligations.StepRunsTheDecodedInstruction : Prop :=
  ∀ (s : State) (i : Instr), s.run = .running → s.loadOpen = false → s.pc.toNat ≤ 0xFFE →
    decode (s.readByte s.pc.toNat ++ s.readByte (s.pc.toNat + 1)) = .ok i →
    (∀ rnd rest, s.env.agenda = .tick rnd :: rest →
      step s = exec i { s with pc := s.pc + 2, env := { s.env with agenda := rest, rnd := rnd } }) ∧
    (s.env.agenda = [] →
      step s = exec i { s with
        pc := s.pc + 2
        env := { s.env with rnd := Config.freeByte s.env.draws, draws := s.env.draws + 1 } })

/-- The faults of a `Tick` before any instruction runs (30_encoding.md R105, 60_exceptions.md R231, R234, R240): a
fetch above 0xFFE raises `MemRangeFault` with no opcode, and otherwise a rejected opcode raises `UnknownOpcodeFault`.
`pc` stays at the fetch address in a next state, the spec's decisions D2, D3 (log 3); the address limit is D5. -/
def Obligations.FetchAndDispatchFaults : Prop :=
  ∀ (s : State) (rnd : Byte) (rest : List Event), s.run = .running → s.loadOpen = false →
    s.env.agenda = .tick rnd :: rest →
    let after := fun record => { s with
      run := .faulted record, env := { s.env with agenda := rest, rnd := rnd } }
    (0xFFE < s.pc.toNat → step s = .next (after { kind := .memRange, pc := s.pc, opcode := none })) ∧
    (∀ e, s.pc.toNat ≤ 0xFFE →
      decode (s.readByte s.pc.toNat ++ s.readByte (s.pc.toNat + 1)) = .error e →
      step s = .next (after { kind := .unknownOpcode, pc := s.pc
                              opcode := some (s.readByte s.pc.toNat ++ s.readByte (s.pc.toNat + 1)) }))

/-- The order of host events (70_reset_and_hazards.md R271, R274): a schedule in the required order is never refused
for its order, and stays in it. Each step succeeds, or is a `Tick` of a faulted machine (R238), or loads an image of
more than 3584 bytes (R273). After `Reset` and before `LoadROM` a `Tick` is refused. The empty schedule goes on with
`Tick`s (log 1). -/
def Obligations.RequiredOrderIsNeverRefused : Prop :=
  (∀ s : State, s.FollowsRequiredOrder →
    (∃ t, step s = .next t ∧ t.FollowsRequiredOrder) ∨
    (∃ r, s.run = .faulted r ∧ step s = .fault (.halted r)) ∨
    (∃ rom rest, s.env.agenda = .loadRom rom :: rest ∧ 3584 < rom.length ∧
      step s = .refused (.romTooLarge rom.length))) ∧
  (∀ s : State, s.run = .running → s.loadOpen = true →
    (s.env.agenda = [] ∨ ∃ rnd rest, s.env.agenda = .tick rnd :: rest) → step s = .refused .notLoaded)

/-- Once `run = Faulted` a `Tick` is not enabled (60_exceptions.md R238; the spec's decision D2): the model's step stops
with the fault record (log 3). Under `FAULT_POLICY = halt` only `Reset` leaves a fault: `run` and `fault` keep their
values over every other step, and all architectural state but timers, keys and `draw_dirty` does. -/
def Obligations.OnlyResetLeavesAFault : Prop :=
  ∀ (s : State) (r : FaultRecord), s.run = .faulted r →
    ((s.env.agenda = [] ∨ ∃ rnd rest, s.env.agenda = .tick rnd :: rest) → step s = .fault (.halted r)) ∧
    ∀ t, s.config.faultPolicy = .halt → s.loadOpen = false → step s = .next t →
      (∃ rest, s.env.agenda = .reset :: rest) ∨
      (t.run = .faulted r ∧ t.V = s.V ∧ t.I = s.I ∧ t.pc = s.pc ∧ t.stack = s.stack ∧ t.sp = s.sp ∧
        t.mem = s.mem ∧ t.disp = s.disp ∧ t.config = s.config)

/-- R245: `TimerStep`, enabled whatever `run` is, touches nothing but `DT` and `ST`. -/
def Obligations.TimerStepDecrementsBoth : Prop :=
  ∀ (s : State) (rest : List Event), s.env.agenda = .timerStep :: rest →
    ∃ t, step s = .next t ∧ t.DT.toNat = s.DT.toNat - 1 ∧ t.ST.toNat = s.ST.toNat - 1 ∧
      t.env = { s.env with agenda := rest } ∧
      ({ s with env := { s.env with agenda := rest } }).ChangesOnly t [] [.delayTimer, .soundTimer]

/-- R249, R251: `SetKeys(k)` and `RenderAck`, enabled at all times. -/
def Obligations.HostWritesKeysAndAcknowledges : Prop :=
  ∀ (s : State) (rest : List Event),
    (∀ k, s.env.agenda = .setKeys k :: rest →
      step s = .next { s with keys := k, env := { s.env with agenda := rest } }) ∧
    (s.env.agenda = .renderAck :: rest →
      step s = .next { s with drawDirty := false, env := { s.env with agenda := rest } })

/-- `Reset` from any state, a faulted one included, puts memory at the font table and zeros, `pc` at 0x200, the stack
empty and the timers at 0 (10_state.md R42, 70_reset_and_hazards.md R270). Registers, `I`, display, `draw_dirty`,
keys and `run` are the spec's decision D9 (log 8). -/
def Obligations.ResetPutsEveryValue : Prop :=
  ∀ (s : State) (rest : List Event), s.env.agenda = .reset :: rest →
    ∃ t, step s = .next t ∧
      (∀ a, t.readByte a = if h : a < 80 then s.config.font[a] else 0) ∧
      t.pc = 0x200 ∧ t.sp.val = 0 ∧ t.DT = 0 ∧ t.ST = 0 ∧
      (∀ n, t.getV n = 0) ∧ t.I = 0 ∧ (∀ c r, t.cell c r = false) ∧ t.drawDirty = false ∧ t.keys = 0 ∧
      t.run = .running ∧ t.loadOpen = true ∧ t.config = s.config

/-- `LoadROM` (20_memory.md R79, 70_reset_and_hazards.md R273): an image of at most 3584 bytes is copied verbatim from
0x200, once, before the first `Tick`; a longer one is refused. That length 0 is accepted and a second load is not is
the spec's decision D25 (log 14). -/
def Obligations.LoadRomCopiesTheImage : Prop :=
  ∀ (s : State) (rom : List Byte) (rest : List Event), s.env.agenda = .loadRom rom :: rest →
    (s.loadOpen = false → step s = .refused .loadTooLate) ∧
    (s.loadOpen = true → 3584 < rom.length → step s = .refused (.romTooLarge rom.length)) ∧
    (s.loadOpen = true → rom.length ≤ 3584 → ∃ t, step s = .next t ∧
      (s.MemoryCanonical → ∀ k : Fin rom.length, t.readByte (0x200 + k.val) = rom[k]) ∧
      (∀ a, a < 0x200 ∨ 0x200 + rom.length ≤ a → t.readByte a = s.readByte a) ∧
      t.loadOpen = false ∧
      { t with mem := s.mem, loadOpen := true, env := s.env } = s)

/-- After `j` `TimerStep`s and nothing else, `DT` and `ST` are their old values minus `j`, never below 0
(60_exceptions.md R247 (a)). -/
def Obligations.TimersReachZeroAndStay : Prop :=
  ∀ (j : Nat) (s : State) (rest : List Event), s.env.agenda = List.replicate j .timerStep ++ rest →
    ∃ t, Sys2Proof.core.run j s = .next t ∧
      t.DT.toNat = s.DT.toNat - j ∧ t.ST.toNat = s.ST.toNat - j ∧ t.env.agenda = rest ∧ t.run = s.run

/-- A step makes a timer greater only by executing its write, `FX15` for `DT` (60_exceptions.md R247 (b)) and `FX18`
for `ST`, and then to the register's value. -/
def Obligations.TimersGrowOnlyByTheirWrites : Prop :=
  ∀ s t : State, step s = .next t →
    let opcode := s.readByte s.pc.toNat ++ s.readByte (s.pc.toNat + 1)
    (s.DT.toNat < t.DT.toNat → ∃ x, decode opcode = .ok (.ldDtVx x) ∧ t.DT = s.getV x) ∧
    (s.ST.toNat < t.ST.toNat → ∃ x, decode opcode = .ok (.ldStVx x) ∧ t.ST = s.getV x)

/-- The end of a run (70_reset_and_hazards.md R275; the spec's convention, log 21) is the self-jump and lasts: from it
every `Tick` leaves the machine as it was, for any number of steps, each of these runs is safe and at its end again, and
of the other steps only `Reset` leaves it. -/
def Obligations.SelfJumpRunsForEver : Prop :=
  (∀ (s : State) (nnn : Imm12), s.run = .running → s.pc = nnn.setWidth 16 → s.pc.toNat ≤ 0xFFE →
    s.readByte s.pc.toNat ++ s.readByte (s.pc.toNat + 1) = encode (.jp nnn) → s.EndOfRun) ∧
  (∀ (n : Nat) (s : State), s.EndOfRun → s.loadOpen = false → (∀ e ∈ s.env.agenda, ∃ rnd, e = .tick rnd) →
    RunEndsAfter n s ∧ ∃ t, Sys2Proof.core.run n s = .next t ∧ s.SameMachine t) ∧
  (∀ s t : State, s.EndOfRun → s.loadOpen = false → (∀ rest, s.env.agenda ≠ .reset :: rest) → step s = .next t →
    t.EndOfRun)

/-! ## Invariants of every step -/

/-- Every step keeps the canonical form of memory and stores nothing outside the 4096 bytes (20_memory.md R60). -/
def Obligations.StepKeepsMemoryCanonical : Prop :=
  ∀ s t : State, s.MemoryCanonical → step s = .next t → t.MemoryCanonical

/-- Every step keeps the font table and the zero range below 0x200 (20_memory.md R62, R63; the spec's decision D7). -/
def Obligations.StepKeepsLowMemoryFixed : Prop :=
  ∀ s t : State, s.LowMemoryFixed → step s = .next t → t.LowMemoryFixed

/-- Every step keeps the fault record truthful (60_exceptions.md R230, R236; the spec's decisions D2, D3). -/
def Obligations.StepKeepsFaultRecordTruthful : Prop :=
  ∀ s t : State, s.FaultTruthful → step s = .next t → t.FaultTruthful

/-- Every step keeps `pc` at most 0x10FE and every live return address at most 0x1000, in states whose fault record is
truthful (10_state.md R24; 44_index_jump_random.md R171; the spec's decision D22). -/
def Obligations.StepKeepsPcInRange : Prop :=
  ∀ s t : State, s.FaultTruthful → s.PcInRange → step s = .next t → t.PcInRange

/-- No step changes the configuration inputs (10_state.md R38; the spec's decision D20). -/
def Obligations.StepKeepsConfiguration : Prop :=
  ∀ s t : State, step s = .next t → t.config = s.config

/-- The state after reset meets every invariant (10_state.md R42). -/
def Obligations.ResetMeetsTheInvariants : Prop :=
  State.reset.MemoryCanonical ∧ State.reset.LowMemoryFixed ∧ State.reset.FaultTruthful ∧ State.reset.PcInRange

/-- The invariants hold of every state a run from reset can reach, whatever the schedule of events: `s` is the reset
state with any agenda, any configuration and any random input (10_state.md R42; 00_scope.md R7; logs 1, 5). -/
def Obligations.ReachableStatesMeetTheInvariants : Prop :=
  ∀ (c : Config) (e : Environment) (t : State), Reachable { State.boot c with env := e } t →
    t.MemoryCanonical ∧ t.LowMemoryFixed ∧ t.FaultTruthful ∧ t.PcInRange ∧ t.config = c
end

