-- ==== Sys2Proof/Laws/Decode.lean ====
section
/-! SUPPORT. Fields of an encoded word as numbers, and what a "match under mask" says of the fields (30_encoding.md
R91, R92). -/

namespace Sys2Proof

/-! The three formats as numbers. -/

theorem toNat_formNNN (i : Nibble) (nnn : Imm12) : (formNNN i nnn).toNat = i.toNat * 4096 + nnn.toNat := by
  have h : (formNNN i nnn).toNat = i.toNat <<< 12 ||| nnn.toNat := BitVec.toNat_append i nnn
  rw [h, ← Nat.shiftLeft_add_eq_or_of_lt nnn.isLt, Nat.shiftLeft_eq]

theorem toNat_formXNN (i x : Nibble) (nn : Byte) :
    (formXNN i x nn).toNat = i.toNat * 4096 + x.toNat * 256 + nn.toNat := by
  have h : (formXNN i x nn).toNat = (i ++ x).toNat <<< 8 ||| nn.toNat := BitVec.toNat_append (i ++ x) nn
  have h2 : (i ++ x).toNat = i.toNat <<< 4 ||| x.toNat := BitVec.toNat_append i x
  rw [h, ← Nat.shiftLeft_add_eq_or_of_lt nn.isLt, h2, ← Nat.shiftLeft_add_eq_or_of_lt x.isLt]
  simp only [Nat.shiftLeft_eq]
  omega

theorem toNat_formXYN (i x y n : Nibble) :
    (formXYN i x y n).toNat = i.toNat * 4096 + x.toNat * 256 + y.toNat * 16 + n.toNat := by
  have h : (formXYN i x y n).toNat = (i ++ x ++ y).toNat <<< 4 ||| n.toNat := BitVec.toNat_append (i ++ x ++ y) n
  have h2 : (i ++ x ++ y).toNat = (i ++ x).toNat <<< 4 ||| y.toNat := BitVec.toNat_append (i ++ x) y
  have h3 : (i ++ x).toNat = i.toNat <<< 4 ||| x.toNat := BitVec.toNat_append i x
  rw [h, ← Nat.shiftLeft_add_eq_or_of_lt n.isLt, h2, ← Nat.shiftLeft_add_eq_or_of_lt y.isLt, h3,
    ← Nat.shiftLeft_add_eq_or_of_lt x.isLt]
  simp only [Nat.shiftLeft_eq]
  omega

theorem toNat_opcodeOfBytes (hi lo : Byte) : (opcodeOfBytes hi lo).toNat = hi.toNat * 256 + lo.toNat := by
  have h : (opcodeOfBytes hi lo).toNat = hi.toNat <<< 8 ||| lo.toNat := BitVec.toNat_append hi lo
  rw [h, ← Nat.shiftLeft_add_eq_or_of_lt lo.isLt, Nat.shiftLeft_eq]

/-! The fields as numbers. -/

@[simp] theorem operandRecord_opcode (w : Word) : (operandRecord w).opcode = w := rfl

theorem toNat_inst (w : Word) : (operandRecord w).inst.toNat = w.toNat / 4096 := by
  have := w.isLt
  simp only [operandRecord, BitVec.extractLsb'_toNat, Nat.shiftRight_eq_div_pow]
  omega

theorem toNat_x (w : Word) : (operandRecord w).x.toNat = w.toNat / 256 % 16 := by
  simp only [operandRecord, BitVec.extractLsb'_toNat, Nat.shiftRight_eq_div_pow]

theorem toNat_y (w : Word) : (operandRecord w).y.toNat = w.toNat / 16 % 16 := by
  simp only [operandRecord, BitVec.extractLsb'_toNat, Nat.shiftRight_eq_div_pow]

theorem toNat_n (w : Word) : (operandRecord w).n.toNat = w.toNat % 16 := by
  simp only [operandRecord, BitVec.extractLsb'_toNat, Nat.shiftRight_eq_div_pow]; omega

theorem toNat_nn (w : Word) : (operandRecord w).nn.toNat = w.toNat % 256 := by
  simp only [operandRecord, BitVec.extractLsb'_toNat, Nat.shiftRight_eq_div_pow]; omega

theorem toNat_nnn (w : Word) : (operandRecord w).nnn.toNat = w.toNat % 4096 := by
  simp only [operandRecord, BitVec.extractLsb'_toNat, Nat.shiftRight_eq_div_pow]; omega

theorem toNat_highByte (w : Word) : (highByte w).toNat = w.toNat / 256 := by
  have := w.isLt
  simp only [highByte, BitVec.extractLsb'_toNat, Nat.shiftRight_eq_div_pow]; omega

theorem toNat_lowByte (w : Word) : (lowByte w).toNat = w.toNat % 256 := by
  simp only [lowByte, BitVec.extractLsb'_toNat, Nat.shiftRight_eq_div_pow]; omega

/-- The two bytes of a word make the word (R64). -/
@[simp] theorem opcodeOfBytes_high_low (w : Word) : opcodeOfBytes (highByte w) (lowByte w) = w := by
  apply BitVec.eq_of_toNat_eq
  rw [toNat_opcodeOfBytes, toNat_highByte, toNat_lowByte]
  omega

/-- The first field of every format is `inst`; the formats cut back into their own fields. -/
@[simp] theorem formNNN_inst (i : Nibble) (nnn : Imm12) : (operandRecord (formNNN i nnn)).inst = i := by
  apply BitVec.eq_of_toNat_eq; rw [toNat_inst, toNat_formNNN]; omega

@[simp] theorem formNNN_nnn (i : Nibble) (nnn : Imm12) : (operandRecord (formNNN i nnn)).nnn = nnn := by
  apply BitVec.eq_of_toNat_eq; rw [toNat_nnn, toNat_formNNN]; omega

@[simp] theorem formXNN_inst (i x : Nibble) (nn : Byte) : (operandRecord (formXNN i x nn)).inst = i := by
  apply BitVec.eq_of_toNat_eq; rw [toNat_inst, toNat_formXNN]; omega

@[simp] theorem formXNN_x (i x : Nibble) (nn : Byte) : (operandRecord (formXNN i x nn)).x = x := by
  apply BitVec.eq_of_toNat_eq; rw [toNat_x, toNat_formXNN]; omega

@[simp] theorem formXNN_nn (i x : Nibble) (nn : Byte) : (operandRecord (formXNN i x nn)).nn = nn := by
  apply BitVec.eq_of_toNat_eq; rw [toNat_nn, toNat_formXNN]; omega

@[simp] theorem formXYN_inst (i x y n : Nibble) : (operandRecord (formXYN i x y n)).inst = i := by
  apply BitVec.eq_of_toNat_eq; rw [toNat_inst, toNat_formXYN]; omega

@[simp] theorem formXYN_x (i x y n : Nibble) : (operandRecord (formXYN i x y n)).x = x := by
  apply BitVec.eq_of_toNat_eq; rw [toNat_x, toNat_formXYN]; omega

@[simp] theorem formXYN_y (i x y n : Nibble) : (operandRecord (formXYN i x y n)).y = y := by
  apply BitVec.eq_of_toNat_eq; rw [toNat_y, toNat_formXYN]; omega

@[simp] theorem formXYN_n (i x y n : Nibble) : (operandRecord (formXYN i x y n)).n = n := by
  apply BitVec.eq_of_toNat_eq; rw [toNat_n, toNat_formXYN]; omega

/-! A word is put together from its fields. -/

theorem formNNN_of_fields (w : Word) : formNNN (operandRecord w).inst (operandRecord w).nnn = w := by
  apply BitVec.eq_of_toNat_eq; rw [toNat_formNNN, toNat_inst, toNat_nnn]; omega

theorem formXNN_of_fields (w : Word) :
    formXNN (operandRecord w).inst (operandRecord w).x (operandRecord w).nn = w := by
  apply BitVec.eq_of_toNat_eq; rw [toNat_formXNN, toNat_inst, toNat_x, toNat_nn]; omega

theorem formXYN_of_fields (w : Word) :
    formXYN (operandRecord w).inst (operandRecord w).x (operandRecord w).y (operandRecord w).n = w := by
  apply BitVec.eq_of_toNat_eq; rw [toNat_formXYN, toNat_inst, toNat_x, toNat_y, toNat_n]; omega

/-! Match under mask. -/

/-- Where the mask is all ones, the word has the field of the pattern. -/
theorem field_of_mask {w mask pattern : Word} (start len : Nat) (h : w &&& mask = pattern)
    (hm : mask.extractLsb' start len = BitVec.allOnes len) :
    w.extractLsb' start len = pattern.extractLsb' start len := by
  rw [← h, BitVec.extractLsb'_and, hm, BitVec.and_allOnes]

theorem inst_of_mask {w mask pattern : Word} (h : w &&& mask = pattern)
    (hm : mask.extractLsb' 12 4 = BitVec.allOnes 4) : (operandRecord w).inst = (operandRecord pattern).inst :=
  field_of_mask 12 4 h hm

theorem nn_of_mask {w mask pattern : Word} (h : w &&& mask = pattern)
    (hm : mask.extractLsb' 0 8 = BitVec.allOnes 8) : (operandRecord w).nn = (operandRecord pattern).nn :=
  field_of_mask 0 8 h hm

theorem n_of_mask {w mask pattern : Word} (h : w &&& mask = pattern)
    (hm : mask.extractLsb' 0 4 = BitVec.allOnes 4) : (operandRecord w).n = (operandRecord pattern).n :=
  field_of_mask 0 4 h hm

end Sys2Proof
end

