-- ==== Sys2Proof/Laws/State.lean ====
section
/-! SUPPORT. One lemma per field per named update of State: what the update leaves alone, and what it writes where
that is a plain value. True by rfl, or by cases on the update's own condition. -/

namespace Sys2Proof.Machine

/-! `setV`. -/

@[simp] theorem State.setV_I (s : State) (n : Nibble) (b : Byte) :
    (s.setV n b).I = s.I := rfl
@[simp] theorem State.setV_pc (s : State) (n : Nibble) (b : Byte) :
    (s.setV n b).pc = s.pc := rfl
@[simp] theorem State.setV_stack (s : State) (n : Nibble) (b : Byte) :
    (s.setV n b).stack = s.stack := rfl
@[simp] theorem State.setV_sp (s : State) (n : Nibble) (b : Byte) :
    (s.setV n b).sp = s.sp := rfl
@[simp] theorem State.setV_DT (s : State) (n : Nibble) (b : Byte) :
    (s.setV n b).DT = s.DT := rfl
@[simp] theorem State.setV_ST (s : State) (n : Nibble) (b : Byte) :
    (s.setV n b).ST = s.ST := rfl
@[simp] theorem State.setV_mem (s : State) (n : Nibble) (b : Byte) :
    (s.setV n b).mem = s.mem := rfl
@[simp] theorem State.setV_disp (s : State) (n : Nibble) (b : Byte) :
    (s.setV n b).disp = s.disp := rfl
@[simp] theorem State.setV_drawDirty (s : State) (n : Nibble) (b : Byte) :
    (s.setV n b).drawDirty = s.drawDirty := rfl
@[simp] theorem State.setV_keys (s : State) (n : Nibble) (b : Byte) :
    (s.setV n b).keys = s.keys := rfl
@[simp] theorem State.setV_run (s : State) (n : Nibble) (b : Byte) :
    (s.setV n b).run = s.run := rfl
@[simp] theorem State.setV_loadOpen (s : State) (n : Nibble) (b : Byte) :
    (s.setV n b).loadOpen = s.loadOpen := rfl
@[simp] theorem State.setV_config (s : State) (n : Nibble) (b : Byte) :
    (s.setV n b).config = s.config := rfl
@[simp] theorem State.setV_env (s : State) (n : Nibble) (b : Byte) :
    (s.setV n b).env = s.env := rfl

/-! `loadRegisters`. -/

@[simp] theorem State.loadRegisters_I (s : State) (bytes : List Byte) :
    (s.loadRegisters bytes).I = s.I := rfl
@[simp] theorem State.loadRegisters_pc (s : State) (bytes : List Byte) :
    (s.loadRegisters bytes).pc = s.pc := rfl
@[simp] theorem State.loadRegisters_stack (s : State) (bytes : List Byte) :
    (s.loadRegisters bytes).stack = s.stack := rfl
@[simp] theorem State.loadRegisters_sp (s : State) (bytes : List Byte) :
    (s.loadRegisters bytes).sp = s.sp := rfl
@[simp] theorem State.loadRegisters_DT (s : State) (bytes : List Byte) :
    (s.loadRegisters bytes).DT = s.DT := rfl
@[simp] theorem State.loadRegisters_ST (s : State) (bytes : List Byte) :
    (s.loadRegisters bytes).ST = s.ST := rfl
@[simp] theorem State.loadRegisters_mem (s : State) (bytes : List Byte) :
    (s.loadRegisters bytes).mem = s.mem := rfl
@[simp] theorem State.loadRegisters_disp (s : State) (bytes : List Byte) :
    (s.loadRegisters bytes).disp = s.disp := rfl
@[simp] theorem State.loadRegisters_drawDirty (s : State) (bytes : List Byte) :
    (s.loadRegisters bytes).drawDirty = s.drawDirty := rfl
@[simp] theorem State.loadRegisters_keys (s : State) (bytes : List Byte) :
    (s.loadRegisters bytes).keys = s.keys := rfl
@[simp] theorem State.loadRegisters_run (s : State) (bytes : List Byte) :
    (s.loadRegisters bytes).run = s.run := rfl
@[simp] theorem State.loadRegisters_loadOpen (s : State) (bytes : List Byte) :
    (s.loadRegisters bytes).loadOpen = s.loadOpen := rfl
@[simp] theorem State.loadRegisters_config (s : State) (bytes : List Byte) :
    (s.loadRegisters bytes).config = s.config := rfl
@[simp] theorem State.loadRegisters_env (s : State) (bytes : List Byte) :
    (s.loadRegisters bytes).env = s.env := rfl

/-! `advancePc`. -/

@[simp] theorem State.advancePc_V (s : State) :
    (s.advancePc).V = s.V := rfl
@[simp] theorem State.advancePc_I (s : State) :
    (s.advancePc).I = s.I := rfl
@[simp] theorem State.advancePc_stack (s : State) :
    (s.advancePc).stack = s.stack := rfl
@[simp] theorem State.advancePc_sp (s : State) :
    (s.advancePc).sp = s.sp := rfl
@[simp] theorem State.advancePc_DT (s : State) :
    (s.advancePc).DT = s.DT := rfl
@[simp] theorem State.advancePc_ST (s : State) :
    (s.advancePc).ST = s.ST := rfl
@[simp] theorem State.advancePc_mem (s : State) :
    (s.advancePc).mem = s.mem := rfl
@[simp] theorem State.advancePc_disp (s : State) :
    (s.advancePc).disp = s.disp := rfl
@[simp] theorem State.advancePc_drawDirty (s : State) :
    (s.advancePc).drawDirty = s.drawDirty := rfl
@[simp] theorem State.advancePc_keys (s : State) :
    (s.advancePc).keys = s.keys := rfl
@[simp] theorem State.advancePc_run (s : State) :
    (s.advancePc).run = s.run := rfl
@[simp] theorem State.advancePc_loadOpen (s : State) :
    (s.advancePc).loadOpen = s.loadOpen := rfl
@[simp] theorem State.advancePc_config (s : State) :
    (s.advancePc).config = s.config := rfl
@[simp] theorem State.advancePc_env (s : State) :
    (s.advancePc).env = s.env := rfl

/-! `enterFault`. -/

@[simp] theorem State.enterFault_V (s : State) (k : FaultKind) (a : Word) (o : Option Word) :
    (s.enterFault k a o).V = s.V := rfl
@[simp] theorem State.enterFault_I (s : State) (k : FaultKind) (a : Word) (o : Option Word) :
    (s.enterFault k a o).I = s.I := rfl
@[simp] theorem State.enterFault_stack (s : State) (k : FaultKind) (a : Word) (o : Option Word) :
    (s.enterFault k a o).stack = s.stack := rfl
@[simp] theorem State.enterFault_sp (s : State) (k : FaultKind) (a : Word) (o : Option Word) :
    (s.enterFault k a o).sp = s.sp := rfl
@[simp] theorem State.enterFault_DT (s : State) (k : FaultKind) (a : Word) (o : Option Word) :
    (s.enterFault k a o).DT = s.DT := rfl
@[simp] theorem State.enterFault_ST (s : State) (k : FaultKind) (a : Word) (o : Option Word) :
    (s.enterFault k a o).ST = s.ST := rfl
@[simp] theorem State.enterFault_mem (s : State) (k : FaultKind) (a : Word) (o : Option Word) :
    (s.enterFault k a o).mem = s.mem := rfl
@[simp] theorem State.enterFault_disp (s : State) (k : FaultKind) (a : Word) (o : Option Word) :
    (s.enterFault k a o).disp = s.disp := rfl
@[simp] theorem State.enterFault_drawDirty (s : State) (k : FaultKind) (a : Word) (o : Option Word) :
    (s.enterFault k a o).drawDirty = s.drawDirty := rfl
@[simp] theorem State.enterFault_keys (s : State) (k : FaultKind) (a : Word) (o : Option Word) :
    (s.enterFault k a o).keys = s.keys := rfl
@[simp] theorem State.enterFault_loadOpen (s : State) (k : FaultKind) (a : Word) (o : Option Word) :
    (s.enterFault k a o).loadOpen = s.loadOpen := rfl
@[simp] theorem State.enterFault_config (s : State) (k : FaultKind) (a : Word) (o : Option Word) :
    (s.enterFault k a o).config = s.config := rfl
@[simp] theorem State.enterFault_env (s : State) (k : FaultKind) (a : Word) (o : Option Word) :
    (s.enterFault k a o).env = s.env := rfl

/-! `openTick`. -/

@[simp] theorem State.openTick_V (s : State) (r : Byte) :
    (s.openTick r).V = s.V := rfl
@[simp] theorem State.openTick_I (s : State) (r : Byte) :
    (s.openTick r).I = s.I := rfl
@[simp] theorem State.openTick_pc (s : State) (r : Byte) :
    (s.openTick r).pc = s.pc := rfl
@[simp] theorem State.openTick_stack (s : State) (r : Byte) :
    (s.openTick r).stack = s.stack := rfl
@[simp] theorem State.openTick_sp (s : State) (r : Byte) :
    (s.openTick r).sp = s.sp := rfl
@[simp] theorem State.openTick_DT (s : State) (r : Byte) :
    (s.openTick r).DT = s.DT := rfl
@[simp] theorem State.openTick_ST (s : State) (r : Byte) :
    (s.openTick r).ST = s.ST := rfl
@[simp] theorem State.openTick_mem (s : State) (r : Byte) :
    (s.openTick r).mem = s.mem := rfl
@[simp] theorem State.openTick_disp (s : State) (r : Byte) :
    (s.openTick r).disp = s.disp := rfl
@[simp] theorem State.openTick_drawDirty (s : State) (r : Byte) :
    (s.openTick r).drawDirty = s.drawDirty := rfl
@[simp] theorem State.openTick_keys (s : State) (r : Byte) :
    (s.openTick r).keys = s.keys := rfl
@[simp] theorem State.openTick_run (s : State) (r : Byte) :
    (s.openTick r).run = s.run := rfl
@[simp] theorem State.openTick_config (s : State) (r : Byte) :
    (s.openTick r).config = s.config := rfl

/-! `timerStep`. -/

@[simp] theorem State.timerStep_V (s : State) :
    (s.timerStep).V = s.V := rfl
@[simp] theorem State.timerStep_I (s : State) :
    (s.timerStep).I = s.I := rfl
@[simp] theorem State.timerStep_pc (s : State) :
    (s.timerStep).pc = s.pc := rfl
@[simp] theorem State.timerStep_stack (s : State) :
    (s.timerStep).stack = s.stack := rfl
@[simp] theorem State.timerStep_sp (s : State) :
    (s.timerStep).sp = s.sp := rfl
@[simp] theorem State.timerStep_mem (s : State) :
    (s.timerStep).mem = s.mem := rfl
@[simp] theorem State.timerStep_disp (s : State) :
    (s.timerStep).disp = s.disp := rfl
@[simp] theorem State.timerStep_drawDirty (s : State) :
    (s.timerStep).drawDirty = s.drawDirty := rfl
@[simp] theorem State.timerStep_keys (s : State) :
    (s.timerStep).keys = s.keys := rfl
@[simp] theorem State.timerStep_run (s : State) :
    (s.timerStep).run = s.run := rfl
@[simp] theorem State.timerStep_loadOpen (s : State) :
    (s.timerStep).loadOpen = s.loadOpen := rfl
@[simp] theorem State.timerStep_config (s : State) :
    (s.timerStep).config = s.config := rfl
@[simp] theorem State.timerStep_env (s : State) :
    (s.timerStep).env = s.env := rfl

/-! `setKeys`. -/

@[simp] theorem State.setKeys_V (s : State) (k : BitVec 16) :
    (s.setKeys k).V = s.V := rfl
@[simp] theorem State.setKeys_I (s : State) (k : BitVec 16) :
    (s.setKeys k).I = s.I := rfl
@[simp] theorem State.setKeys_pc (s : State) (k : BitVec 16) :
    (s.setKeys k).pc = s.pc := rfl
@[simp] theorem State.setKeys_stack (s : State) (k : BitVec 16) :
    (s.setKeys k).stack = s.stack := rfl
@[simp] theorem State.setKeys_sp (s : State) (k : BitVec 16) :
    (s.setKeys k).sp = s.sp := rfl
@[simp] theorem State.setKeys_DT (s : State) (k : BitVec 16) :
    (s.setKeys k).DT = s.DT := rfl
@[simp] theorem State.setKeys_ST (s : State) (k : BitVec 16) :
    (s.setKeys k).ST = s.ST := rfl
@[simp] theorem State.setKeys_mem (s : State) (k : BitVec 16) :
    (s.setKeys k).mem = s.mem := rfl
@[simp] theorem State.setKeys_disp (s : State) (k : BitVec 16) :
    (s.setKeys k).disp = s.disp := rfl
@[simp] theorem State.setKeys_drawDirty (s : State) (k : BitVec 16) :
    (s.setKeys k).drawDirty = s.drawDirty := rfl
@[simp] theorem State.setKeys_run (s : State) (k : BitVec 16) :
    (s.setKeys k).run = s.run := rfl
@[simp] theorem State.setKeys_loadOpen (s : State) (k : BitVec 16) :
    (s.setKeys k).loadOpen = s.loadOpen := rfl
@[simp] theorem State.setKeys_config (s : State) (k : BitVec 16) :
    (s.setKeys k).config = s.config := rfl
@[simp] theorem State.setKeys_env (s : State) (k : BitVec 16) :
    (s.setKeys k).env = s.env := rfl

/-! `renderAck`. -/

@[simp] theorem State.renderAck_V (s : State) :
    (s.renderAck).V = s.V := rfl
@[simp] theorem State.renderAck_I (s : State) :
    (s.renderAck).I = s.I := rfl
@[simp] theorem State.renderAck_pc (s : State) :
    (s.renderAck).pc = s.pc := rfl
@[simp] theorem State.renderAck_stack (s : State) :
    (s.renderAck).stack = s.stack := rfl
@[simp] theorem State.renderAck_sp (s : State) :
    (s.renderAck).sp = s.sp := rfl
@[simp] theorem State.renderAck_DT (s : State) :
    (s.renderAck).DT = s.DT := rfl
@[simp] theorem State.renderAck_ST (s : State) :
    (s.renderAck).ST = s.ST := rfl
@[simp] theorem State.renderAck_mem (s : State) :
    (s.renderAck).mem = s.mem := rfl
@[simp] theorem State.renderAck_disp (s : State) :
    (s.renderAck).disp = s.disp := rfl
@[simp] theorem State.renderAck_keys (s : State) :
    (s.renderAck).keys = s.keys := rfl
@[simp] theorem State.renderAck_run (s : State) :
    (s.renderAck).run = s.run := rfl
@[simp] theorem State.renderAck_loadOpen (s : State) :
    (s.renderAck).loadOpen = s.loadOpen := rfl
@[simp] theorem State.renderAck_config (s : State) :
    (s.renderAck).config = s.config := rfl
@[simp] theorem State.renderAck_env (s : State) :
    (s.renderAck).env = s.env := rfl

/-! `drawSprite`. -/

@[simp] theorem State.drawSprite_I (s : State) (x y : Nibble) (bs : List Byte) :
    (s.drawSprite x y bs).I = s.I := rfl
@[simp] theorem State.drawSprite_pc (s : State) (x y : Nibble) (bs : List Byte) :
    (s.drawSprite x y bs).pc = s.pc := rfl
@[simp] theorem State.drawSprite_stack (s : State) (x y : Nibble) (bs : List Byte) :
    (s.drawSprite x y bs).stack = s.stack := rfl
@[simp] theorem State.drawSprite_sp (s : State) (x y : Nibble) (bs : List Byte) :
    (s.drawSprite x y bs).sp = s.sp := rfl
@[simp] theorem State.drawSprite_DT (s : State) (x y : Nibble) (bs : List Byte) :
    (s.drawSprite x y bs).DT = s.DT := rfl
@[simp] theorem State.drawSprite_ST (s : State) (x y : Nibble) (bs : List Byte) :
    (s.drawSprite x y bs).ST = s.ST := rfl
@[simp] theorem State.drawSprite_mem (s : State) (x y : Nibble) (bs : List Byte) :
    (s.drawSprite x y bs).mem = s.mem := rfl
@[simp] theorem State.drawSprite_keys (s : State) (x y : Nibble) (bs : List Byte) :
    (s.drawSprite x y bs).keys = s.keys := rfl
@[simp] theorem State.drawSprite_run (s : State) (x y : Nibble) (bs : List Byte) :
    (s.drawSprite x y bs).run = s.run := rfl
@[simp] theorem State.drawSprite_loadOpen (s : State) (x y : Nibble) (bs : List Byte) :
    (s.drawSprite x y bs).loadOpen = s.loadOpen := rfl
@[simp] theorem State.drawSprite_config (s : State) (x y : Nibble) (bs : List Byte) :
    (s.drawSprite x y bs).config = s.config := rfl
@[simp] theorem State.drawSprite_env (s : State) (x y : Nibble) (bs : List Byte) :
    (s.drawSprite x y bs).env = s.env := rfl

/-! What the plain updates write. -/

@[simp] theorem State.advancePc_pc (s : State) : s.advancePc.pc = s.pc + 2 := rfl
@[simp] theorem State.enterFault_pc (s : State) (k : FaultKind) (a : Word) (o : Option Word) :
    (s.enterFault k a o).pc = a := rfl
@[simp] theorem State.enterFault_run (s : State) (k : FaultKind) (a : Word) (o : Option Word) :
    (s.enterFault k a o).run = .faulted { kind := k, pc := a, opcode := o } := rfl
@[simp] theorem State.openTick_loadOpen (s : State) (r : Byte) : (s.openTick r).loadOpen = s.loadOpen := rfl
@[simp] theorem State.openTick_env (s : State) (r : Byte) : (s.openTick r).env = { s.env with rnd := r } := rfl
@[simp] theorem State.timerStep_DT (s : State) : s.timerStep.DT = countDown s.DT := rfl
@[simp] theorem State.timerStep_ST (s : State) : s.timerStep.ST = countDown s.ST := rfl
@[simp] theorem State.setKeys_keys (s : State) (k : BitVec 16) : (s.setKeys k).keys = k := rfl
@[simp] theorem State.renderAck_drawDirty (s : State) : s.renderAck.drawDirty = false := rfl

/-! `skipIf` and `advanceIndex`, by cases on their condition. -/

@[simp] theorem State.skipIf_V (s : State) (c : Bool) : (s.skipIf c).V = s.V := by
  cases c <;> rfl
@[simp] theorem State.skipIf_I (s : State) (c : Bool) : (s.skipIf c).I = s.I := by
  cases c <;> rfl
@[simp] theorem State.skipIf_stack (s : State) (c : Bool) : (s.skipIf c).stack = s.stack := by
  cases c <;> rfl
@[simp] theorem State.skipIf_sp (s : State) (c : Bool) : (s.skipIf c).sp = s.sp := by
  cases c <;> rfl
@[simp] theorem State.skipIf_DT (s : State) (c : Bool) : (s.skipIf c).DT = s.DT := by
  cases c <;> rfl
@[simp] theorem State.skipIf_ST (s : State) (c : Bool) : (s.skipIf c).ST = s.ST := by
  cases c <;> rfl
@[simp] theorem State.skipIf_mem (s : State) (c : Bool) : (s.skipIf c).mem = s.mem := by
  cases c <;> rfl
@[simp] theorem State.skipIf_disp (s : State) (c : Bool) : (s.skipIf c).disp = s.disp := by
  cases c <;> rfl
@[simp] theorem State.skipIf_drawDirty (s : State) (c : Bool) : (s.skipIf c).drawDirty = s.drawDirty := by
  cases c <;> rfl
@[simp] theorem State.skipIf_keys (s : State) (c : Bool) : (s.skipIf c).keys = s.keys := by
  cases c <;> rfl
@[simp] theorem State.skipIf_run (s : State) (c : Bool) : (s.skipIf c).run = s.run := by
  cases c <;> rfl
@[simp] theorem State.skipIf_loadOpen (s : State) (c : Bool) : (s.skipIf c).loadOpen = s.loadOpen := by
  cases c <;> rfl
@[simp] theorem State.skipIf_config (s : State) (c : Bool) : (s.skipIf c).config = s.config := by
  cases c <;> rfl
@[simp] theorem State.skipIf_env (s : State) (c : Bool) : (s.skipIf c).env = s.env := by
  cases c <;> rfl
@[simp] theorem State.skipIf_pc (s : State) (c : Bool) : (s.skipIf c).pc = if c then s.pc + 2 else s.pc := by
  cases c <;> rfl

@[simp] theorem State.advanceIndex_V (s : State) (x : Nibble) : (s.advanceIndex x).V = s.V := by
  unfold State.advanceIndex; split <;> rfl
@[simp] theorem State.advanceIndex_pc (s : State) (x : Nibble) : (s.advanceIndex x).pc = s.pc := by
  unfold State.advanceIndex; split <;> rfl
@[simp] theorem State.advanceIndex_stack (s : State) (x : Nibble) : (s.advanceIndex x).stack = s.stack := by
  unfold State.advanceIndex; split <;> rfl
@[simp] theorem State.advanceIndex_sp (s : State) (x : Nibble) : (s.advanceIndex x).sp = s.sp := by
  unfold State.advanceIndex; split <;> rfl
@[simp] theorem State.advanceIndex_DT (s : State) (x : Nibble) : (s.advanceIndex x).DT = s.DT := by
  unfold State.advanceIndex; split <;> rfl
@[simp] theorem State.advanceIndex_ST (s : State) (x : Nibble) : (s.advanceIndex x).ST = s.ST := by
  unfold State.advanceIndex; split <;> rfl
@[simp] theorem State.advanceIndex_mem (s : State) (x : Nibble) : (s.advanceIndex x).mem = s.mem := by
  unfold State.advanceIndex; split <;> rfl
@[simp] theorem State.advanceIndex_disp (s : State) (x : Nibble) : (s.advanceIndex x).disp = s.disp := by
  unfold State.advanceIndex; split <;> rfl
@[simp] theorem State.advanceIndex_drawDirty (s : State) (x : Nibble) : (s.advanceIndex x).drawDirty = s.drawDirty := by
  unfold State.advanceIndex; split <;> rfl
@[simp] theorem State.advanceIndex_keys (s : State) (x : Nibble) : (s.advanceIndex x).keys = s.keys := by
  unfold State.advanceIndex; split <;> rfl
@[simp] theorem State.advanceIndex_run (s : State) (x : Nibble) : (s.advanceIndex x).run = s.run := by
  unfold State.advanceIndex; split <;> rfl
@[simp] theorem State.advanceIndex_loadOpen (s : State) (x : Nibble) : (s.advanceIndex x).loadOpen = s.loadOpen := by
  unfold State.advanceIndex; split <;> rfl
@[simp] theorem State.advanceIndex_config (s : State) (x : Nibble) : (s.advanceIndex x).config = s.config := by
  unfold State.advanceIndex; split <;> rfl
@[simp] theorem State.advanceIndex_env (s : State) (x : Nibble) : (s.advanceIndex x).env = s.env := by
  unfold State.advanceIndex; split <;> rfl
@[simp] theorem State.advanceIndex_I (s : State) (x : Nibble) :
    (s.advanceIndex x).I = if s.config.quirkIndex then s.I + BitVec.ofNat 16 (x.toNat + 1) else s.I := by
  unfold State.advanceIndex; split <;> rfl

end Sys2Proof.Machine
end

