-- ==== Sys2Proof/Laws/Registers.lean ====
section
/-! SUPPORT. Reads and writes of registers, bytes and cells (read after write, and what a read ignores). -/

namespace Sys2Proof.Machine

theorem nibble_lt (n : Nibble) : n.toNat < 16 := n.isLt

/-- Two states with the same register file agree on every register. -/
theorem getV_congr {s t : State} (h : t.V = s.V) (n : Nibble) : t.getV n = s.getV n := by
  simp [State.getV, h]

/-- Two states with the same memory and configuration agree on every byte. -/
theorem readByte_congr {s t : State} (hm : t.mem = s.mem) (hc : t.config = s.config) (a : Nat) :
    t.readByte a = s.readByte a := by
  simp [State.readByte, hm, hc]

/-- Two states with the same display agree on every cell. -/
theorem cell_congr {s t : State} (h : t.disp = s.disp) (c r : Nat) : t.cell c r = s.cell c r := by
  simp [State.cell, h]

theorem getV_setV (s : State) (n m : Nibble) (b : Byte) :
    (s.setV n b).getV m = if m = n then b else s.getV m := by
  by_cases h : m = n
  · subst h; simp [State.getV, State.setV]
  · have : n.toNat ≠ m.toNat := fun e => h (BitVec.eq_of_toNat_eq e.symm)
    simp [State.getV, State.setV, h, this]

@[simp] theorem getV_setV_self (s : State) (n : Nibble) (b : Byte) : (s.setV n b).getV n = b := by
  simp [getV_setV]

@[simp] theorem getV_setV_ne (s : State) {n m : Nibble} (b : Byte) (h : m ≠ n) :
    (s.setV n b).getV m = s.getV m := by
  simp [getV_setV, h]

theorem getV_loadRegisters (s : State) (bytes : List Byte) (n : Nibble) :
    (s.loadRegisters bytes).getV n = bytes.getD n.toNat (s.getV n) := by
  simp [State.getV, State.loadRegisters]

end Sys2Proof.Machine
end

