-- ==== Sys2Proof/Laws/Draw.lean ====
section
/-! SUPPORT. Drawing, cell by cell: the loop of R180 is an exclusive or with a set of covered cells. -/

namespace Sys2Proof.Machine

theorem cellAt_toggleCell {d : Vector (BitVec 64) 32} {c r : Nat} (hc : c < 64) (hr : r < 32) (c' r' : Nat) :
    cellAt (toggleCell d c r) c' r' = Bool.xor (cellAt d c' r') (decide (c' = c ∧ r' = r)) := by
  unfold cellAt toggleCell
  by_cases h : r' = r
  · subst h
    by_cases h2 : c' = c
    · subst h2; simp [Vector.getD, hr, hc]
    · have : ¬ c = c' := fun e => h2 e.symm
      simp [Vector.getD, hr, h2, BitVec.getLsbD_twoPow, this]
  · have : r ≠ r' := fun e => h e.symm
    by_cases h3 : r' < 32
    · simp [Vector.getD, h3, h, this]
    · simp [Vector.getD, h3, h]

/-- `k'` is `k` with the cells of `A` toggled: each once, collisions and changes recorded. -/
structure Toggles (A : Nat → Nat → Prop) (k k' : Canvas) : Prop where
  cells   : ∀ c r, cellAt k'.disp c r = true ↔ ¬ (cellAt k.disp c r = true ↔ A c r)
  coll    : k'.coll = true ↔ k.coll = true ∨ ∃ c r, A c r ∧ cellAt k.disp c r = true
  changed : k'.changed = true ↔ k.changed = true ∨ ∃ c r, A c r

theorem Toggles.congr {A B : Nat → Nat → Prop} {k k' : Canvas} (h : Toggles A k k') (e : ∀ c r, A c r ↔ B c r) :
    Toggles B k k' := by
  have : A = B := funext fun c => funext fun r => propext (e c r)
  exact this ▸ h

theorem toggles_none (k : Canvas) : Toggles (fun _ _ => False) k k :=
  ⟨by simp, by simp, by simp⟩

/-- Toggling disjoint sets one after the other toggles their union. -/
theorem Toggles.trans {A B : Nat → Nat → Prop} {k k₁ k₂ : Canvas} (h₁ : Toggles A k k₁) (h₂ : Toggles B k₁ k₂)
    (hd : ∀ c r, A c r → ¬ B c r) : Toggles (fun c r => A c r ∨ B c r) k k₂ := by
  have hB : ∀ c r, B c r → ¬ A c r := fun c r hb ha => hd c r ha hb
  refine ⟨fun c r => ?_, ?_, ?_⟩
  · rw [h₂.cells, h₁.cells]
    have := hd c r
    tauto
  · rw [h₂.coll, h₁.coll, or_assoc]
    refine or_congr_right ⟨?_, ?_⟩
    · rintro (⟨c, r, ha, hk⟩ | ⟨c, r, hb, hk⟩)
      · exact ⟨c, r, .inl ha, hk⟩
      · have := (h₁.cells c r).mp hk
        have := hB c r hb
        exact ⟨c, r, .inr hb, by tauto⟩
    · rintro ⟨c, r, ha | hb, hk⟩
      · exact .inl ⟨c, r, ha, hk⟩
      · have := hB c r hb
        exact .inr ⟨c, r, hb, (h₁.cells c r).mpr (by tauto)⟩
  · rw [h₂.changed, h₁.changed, or_assoc]
    refine or_congr_right ⟨?_, ?_⟩
    · rintro (⟨c, r, ha⟩ | ⟨c, r, hb⟩)
      · exact ⟨c, r, .inl ha⟩
      · exact ⟨c, r, .inr hb⟩
    · rintro ⟨c, r, ha | hb⟩
      · exact .inl ⟨c, r, ha⟩
      · exact .inr ⟨c, r, hb⟩

/-- One source bit toggles at most its own cell. -/
theorem drawPixel_toggles (xs row : Nat) (b : Byte) (k : Canvas) (j : Nat) :
    Toggles (fun c r => r = row ∧ c = xs + j ∧ row ≤ 31 ∧ xs + j ≤ 63 ∧ spritePixel b j = true) k
      (drawPixel xs row b k j) := by
  unfold drawPixel
  split
  · next h =>
    obtain ⟨hr, hc, hb⟩ := h
    refine ⟨fun c r => ?_, ?_, ?_⟩
    · simp only [cellAt_toggleCell (show xs + j < 64 by omega) (show row < 32 by omega)]
      by_cases h1 : c = xs + j <;> by_cases h2 : r = row <;> simp [h1, h2, hr, hc, hb]
    · simp [hr, hc, hb]
    · simp [hr, hc, hb]
  · next h =>
    refine (toggles_none k).congr fun c r => ?_
    constructor
    · exact False.elim
    · rintro ⟨-, -, h'⟩; exact h h'

/-- The cells one sprite byte covers on a row. -/
def RowCovers (xs row : Nat) (b : Byte) (c r : Nat) : Prop :=
  r = row ∧ row ≤ 31 ∧ c ≤ 63 ∧ xs ≤ c ∧ c < xs + 8 ∧ spritePixel b (c - xs) = true

theorem drawRow_toggles (xs row : Nat) (b : Byte) (k : Canvas) :
    Toggles (RowCovers xs row b) k (drawRow xs row b k) := by
  have key : ∀ m, Toggles (fun c r => r = row ∧ row ≤ 31 ∧ c ≤ 63 ∧ xs ≤ c ∧ c < xs + m ∧ spritePixel b (c - xs) = true)
      k ((List.range m).foldl (drawPixel xs row b) k) := by
    intro m
    induction m with
    | zero => exact (toggles_none k).congr fun c r => ⟨False.elim, fun h => by omega⟩
    | succ m ih =>
      rw [List.range_succ, List.foldl_append]
      refine (ih.trans (drawPixel_toggles xs row b _ m) ?_).congr ?_
      · rintro c r ⟨-, -, -, -, h, -⟩ ⟨-, rfl, -⟩; omega
      · intro c r
        constructor
        · rintro (⟨h1, h2, h3, h4, h5, h6⟩ | ⟨h1, rfl, h3, h4, h5⟩)
          · exact ⟨h1, h2, h3, h4, by omega, h6⟩
          · exact ⟨h1, h3, h4, by omega, by omega, by rwa [Nat.add_sub_cancel_left]⟩
        · rintro ⟨h1, h2, h3, h4, h5, h6⟩
          by_cases e : c = xs + m
          · subst e; exact .inr ⟨h1, rfl, h2, h3, by rwa [Nat.add_sub_cancel_left] at h6⟩
          · exact .inl ⟨h1, h2, h3, h4, by omega, h6⟩
  exact key 8

/-- The cells a sprite whose bytes are `bs` covers, clipped to the grid (R180, R181). -/
def RowsCover (xs row : Nat) (bs : List Byte) (c r : Nat) : Prop :=
  r ≤ 31 ∧ c ≤ 63 ∧ xs ≤ c ∧ c < xs + 8 ∧ row ≤ r ∧ r < row + bs.length ∧
    spritePixel (bs.getD (r - row) 0) (c - xs) = true

/-- The whole sprite: every covered cell of the grid is toggled once (R180). -/
theorem drawRows_toggles (xs row : Nat) (bs : List Byte) (k : Canvas) :
    Toggles (RowsCover xs row bs) k (drawRows xs row bs k) := by
  induction bs generalizing row k with
  | nil =>
    refine (toggles_none k).congr fun c r => ⟨False.elim, fun h => ?_⟩
    have h' := h
    unfold RowsCover at h'
    simp only [List.length_nil] at h'
    omega
  | cons b bs ih =>
    unfold drawRows
    refine ((drawRow_toggles xs row b k).trans (ih (row + 1) _) ?_).congr ?_
    · rintro c r ⟨h, -⟩ ⟨-, -, -, -, h', -⟩; omega
    · intro c r
      unfold RowCovers RowsCover
      simp only [List.length_cons]
      constructor
      · rintro (⟨rfl, h2, h3, h4, h5, h6⟩ | ⟨h1, h2, h3, h4, h5, h6, h7⟩)
        · exact ⟨h2, h3, h4, h5, by omega, by omega, by simpa using h6⟩
        · refine ⟨h1, h2, h3, h4, by omega, by omega, ?_⟩
          rw [show r - row = (r - (row + 1)) + 1 by omega]
          simpa using h7
      · rintro ⟨h1, h2, h3, h4, h5, h6, h7⟩
        by_cases e : r = row
        · subst e; exact .inl ⟨rfl, h1, h2, h3, h4, by simpa using h7⟩
        · refine .inr ⟨h1, h2, h3, h4, by omega, by omega, ?_⟩
          rw [show r - row = (r - (row + 1)) + 1 by omega] at h7
          simpa using h7

end Sys2Proof.Machine
end

