-- ==== Sys2Proof/Laws/Memory.lean ====
section
/-! SUPPORT. The sparse memory: read after write, and every operation keeps the canonical form. -/

namespace Sys2Proof.Machine

theorem lookup_put_self (m : Memory) (a : Nat) (b : Byte) : Memory.lookup (Memory.put m a b) a = some b := by
  induction m with
  | nil => simp [Memory.put, Memory.lookup]
  | cons c m ih =>
    unfold Memory.put
    split
    · next h => simp [Memory.lookup, Nat.ne_of_lt h, ih]
    · split <;> simp [Memory.lookup]

theorem lookup_put_ne (m : Memory) {a a' : Nat} (b : Byte) (h : a' ≠ a) :
    Memory.lookup (Memory.put m a b) a' = Memory.lookup m a' := by
  induction m with
  | nil => simp [Memory.put, Memory.lookup, h.symm]
  | cons c m ih =>
    unfold Memory.put
    split
    · simp [Memory.lookup, ih]
    · split
      · next hc => simp [Memory.lookup, hc, h.symm]
      · simp [Memory.lookup, h.symm]

theorem lookup_erase_ne (m : Memory) {a a' : Nat} (h : a' ≠ a) :
    Memory.lookup (Memory.erase m a) a' = Memory.lookup m a' := by
  induction m with
  | nil => rfl
  | cons c m ih =>
    unfold Memory.erase
    split
    · simp [Memory.lookup, ih]
    · split
      · next hc => simp [Memory.lookup, hc, h.symm]
      · rfl

theorem lookup_none_of_forall_ne (m : Memory) (a : Nat) (h : ∀ c ∈ m, c.1 ≠ a) : Memory.lookup m a = none := by
  induction m with
  | nil => rfl
  | cons c m ih =>
    simp only [Memory.lookup, h c List.mem_cons_self, if_false]
    exact ih fun d hd => h d (List.mem_cons_of_mem _ hd)

theorem lookup_erase_self (m : Memory) (a : Nat) (h : m.Pairwise fun c d => c.1 < d.1) :
    Memory.lookup (Memory.erase m a) a = none := by
  induction m with
  | nil => rfl
  | cons c m ih =>
    obtain ⟨hc, hm⟩ := List.pairwise_cons.mp h
    unfold Memory.erase
    split
    · next hlt => simp [Memory.lookup, Nat.ne_of_lt hlt, ih hm]
    · split
      · next e => exact lookup_none_of_forall_ne m a fun d hd => by have := hc d hd; omega
      · next hge hne =>
        refine lookup_none_of_forall_ne _ a fun d hd => ?_
        rcases List.mem_cons.mp hd with rfl | hd
        · exact hne
        · have := hc d hd; omega

/-- A write leaves every other address alone, canonical or not. -/
theorem read_write_ne (font : Font) (m : Memory) {a a' : Nat} (b : Byte) (h : a' ≠ a) :
    Memory.read font (Memory.write font m a b) a' = Memory.read font m a' := by
  unfold Memory.read Memory.write
  split
  · rw [lookup_erase_ne m h]
  · rw [lookup_put_ne m b h]

theorem mem_erase {m : Memory} {a : Nat} {c : Host.Cell} (h : c ∈ Memory.erase m a) : c ∈ m := by
  induction m with
  | nil => exact h
  | cons d m ih =>
    unfold Memory.erase at h
    split at h
    · rcases List.mem_cons.mp h with rfl | h
      · exact List.mem_cons_self
      · exact List.mem_cons_of_mem _ (ih h)
    · split at h
      · exact List.mem_cons_of_mem _ h
      · exact h

theorem mem_put {m : Memory} {a : Nat} {b : Byte} {c : Host.Cell} (h : c ∈ Memory.put m a b) :
    c = (a, b) ∨ c ∈ m := by
  induction m with
  | nil => simpa [Memory.put] using h
  | cons d m ih =>
    unfold Memory.put at h
    split at h
    · rcases List.mem_cons.mp h with rfl | h
      · exact .inr List.mem_cons_self
      · exact (ih h).imp id (List.mem_cons_of_mem _)
    · split at h
      · exact (List.mem_cons.mp h).imp id (List.mem_cons_of_mem _)
      · exact List.mem_cons.mp h

theorem pairwise_erase {m : Memory} (a : Nat) (h : m.Pairwise fun c d => c.1 < d.1) :
    (Memory.erase m a).Pairwise fun c d => c.1 < d.1 := by
  induction m with
  | nil => exact h
  | cons c m ih =>
    obtain ⟨hc, hm⟩ := List.pairwise_cons.mp h
    unfold Memory.erase
    split
    · exact List.pairwise_cons.mpr ⟨fun d hd => hc d (mem_erase hd), ih hm⟩
    · split
      · exact hm
      · exact h

theorem pairwise_put {m : Memory} (a : Nat) (b : Byte) (h : m.Pairwise fun c d => c.1 < d.1) :
    (Memory.put m a b).Pairwise fun c d => c.1 < d.1 := by
  induction m with
  | nil => simp [Memory.put]
  | cons c m ih =>
    obtain ⟨hc, hm⟩ := List.pairwise_cons.mp h
    unfold Memory.put
    split
    · next hlt =>
      refine List.pairwise_cons.mpr ⟨fun d hd => ?_, ih hm⟩
      rcases mem_put hd with rfl | hd
      · exact hlt
      · exact hc d hd
    · split
      · next e => exact List.pairwise_cons.mpr ⟨fun d hd => by have := hc d hd; simp only; omega, hm⟩
      · next hge hne =>
        refine List.pairwise_cons.mpr ⟨fun d hd => ?_, h⟩
        rcases List.mem_cons.mp hd with rfl | hd
        · simp only; omega
        · have := hc d hd; simp only; omega

/-- Storing one byte inside the memory keeps the canonical form. -/
theorem write_keeps_wf {font : Font} {m : Memory} {a : Nat} (b : Byte) (h : Memory.wf font m) (ha : a < 4096) :
    Memory.wf font (Memory.write font m a b) := by
  unfold Memory.write
  split
  · exact ⟨pairwise_erase a h.1, fun c hc => h.2 c (mem_erase hc)⟩
  · next hb =>
    refine ⟨pairwise_put a b h.1, fun c hc => ?_⟩
    rcases mem_put hc with rfl | hc
    · exact ⟨ha, hb⟩
    · exact h.2 c hc

/-- A read of the address just written gives the byte written. -/
theorem read_write_self {font : Font} {m : Memory} (a : Nat) (b : Byte) (h : m.Pairwise fun c d => c.1 < d.1) :
    Memory.read font (Memory.write font m a b) a = b := by
  unfold Memory.read Memory.write
  split
  · next e => rw [lookup_erase_self m a h, Option.getD_none, e]
  · rw [lookup_put_self, Option.getD_some]

theorem pairwise_write {font : Font} {m : Memory} (a : Nat) (b : Byte) (h : m.Pairwise fun c d => c.1 < d.1) :
    (Memory.write font m a b).Pairwise fun c d => c.1 < d.1 := by
  unfold Memory.write
  split
  · exact pairwise_erase a h
  · exact pairwise_put a b h

theorem pairwise_writeSpan {font : Font} {m : Memory} (bs : List Byte) (a : Nat)
    (h : m.Pairwise fun c d => c.1 < d.1) :
    (Memory.writeSpan font m a bs).Pairwise fun c d => c.1 < d.1 := by
  induction bs generalizing a with
  | nil => exact h
  | cons b bs ih => exact pairwise_write a b (ih (a + 1))

/-- Storing a span inside the memory keeps the canonical form. -/
theorem writeSpan_keeps_wf {font : Font} {m : Memory} (bs : List Byte) (a : Nat) (h : Memory.wf font m)
    (ha : a + bs.length ≤ 4096) : Memory.wf font (Memory.writeSpan font m a bs) := by
  induction bs generalizing a with
  | nil => exact h
  | cons b bs ih =>
    simp only [List.length_cons] at ha
    exact write_keeps_wf b (ih (a + 1) (by omega)) (by omega)

/-- A span store leaves every address outside the span alone. -/
theorem read_writeSpan_outside (font : Font) (m : Memory) (bs : List Byte) (a : Nat) {a' : Nat}
    (h : a' < a ∨ a + bs.length ≤ a') :
    Memory.read font (Memory.writeSpan font m a bs) a' = Memory.read font m a' := by
  induction bs generalizing a with
  | nil => rfl
  | cons b bs ih =>
    simp only [List.length_cons] at h
    rw [Memory.writeSpan, read_write_ne _ _ _ (by omega), ih (a + 1) (by omega)]

/-- A span store puts its `k`-th byte at its `k`-th address. -/
theorem read_writeSpan_inside {font : Font} {m : Memory} (bs : List Byte) (a k : Nat)
    (h : m.Pairwise fun c d => c.1 < d.1) (hk : k < bs.length) :
    Memory.read font (Memory.writeSpan font m a bs) (a + k) = bs[k] := by
  induction bs generalizing a k with
  | nil => simp at hk
  | cons b bs ih =>
    cases k with
    | zero => exact read_write_self a b (pairwise_writeSpan bs (a + 1) h)
    | succ k =>
      have hk' : k < bs.length := by simpa using hk
      rw [Memory.writeSpan, read_write_ne _ _ _ (by omega), show a + (k + 1) = a + 1 + k by omega, ih _ _ hk']
      rfl

/-- With nothing listed, memory reads as after reset (R42). -/
theorem read_nil (font : Font) (a : Nat) : Memory.read font [] a = if h : a < 80 then font[a] else 0 := by
  by_cases h : a < 80 <;> simp [Memory.read, Memory.lookup, Memory.unlisted, Vector.getD, h]

@[simp] theorem length_readSpan (font : Font) (m : Memory) (a n : Nat) :
    (Memory.readSpan font m a n).length = n := by
  simp [Memory.readSpan]

theorem getD_readSpan (font : Font) (m : Memory) (a : Nat) {n k : Nat} (d : Byte) (h : k < n) :
    (Memory.readSpan font m a n).getD k d = Memory.read font m (a + k) := by
  simp [Memory.readSpan, h]

end Sys2Proof.Machine
end

