-- ==== Sys2Proof/Laws/Ops.lean ====
section
/-! SUPPORT. One lemma per outcome of each shared operation of Machine/Ops.lean, Operands.lean and Flags.lean. -/

namespace Sys2Proof.Machine

/-! `conclude`. -/

@[simp] theorem conclude_ok (i : Instr) (s t : State) : conclude i s (.ok t) = .next t := rfl

@[simp] theorem conclude_error (i : Instr) (s : State) (k : FaultKind) :
    conclude i s (.error k) = .next (s.enterFault k (s.pc - 2) (some (encode i))) := rfl

/-- An instruction always concludes in a next state: its result, or the fault it raised. -/
theorem conclude_next (i : Instr) (s : State) (r : Except FaultKind State) : ∃ t, conclude i s r = .next t := by
  cases r <;> simp

/-- What `conclude` can answer. -/
theorem conclude_cases {i : Instr} {s t : State} {r : Except FaultKind State} (h : conclude i s r = .next t) :
    r = .ok t ∨ ∃ k, r = .error k ∧ t = s.enterFault k (s.pc - 2) (some (encode i)) := by
  cases r with
  | ok u => exact .inl (by cases h; rfl)
  | error k => exact .inr ⟨k, rfl, by cases h; rfl⟩

/-! Fetch (R105). -/

theorem fetch_ok {s : State} (h : s.pc.toNat ≤ 0xFFE) :
    s.fetch = .ok (opcodeOfBytes (s.readByte s.pc.toNat) (s.readByte (s.pc.toNat + 1))) := by
  unfold State.fetch State.memRead
  rw [if_neg (by omega), if_neg (by omega)]
  rfl

theorem fetch_error {s : State} (h : 0xFFE < s.pc.toNat) : s.fetch = .error .memRange := by
  unfold State.fetch State.memRead
  by_cases h2 : s.pc.toNat > 0xFFF
  · rw [if_pos h2]; rfl
  · rw [if_neg h2, if_pos (by omega)]; rfl

/-- A fetch sees only `pc`, memory and the font. -/
theorem fetch_congr {s t : State} (hp : t.pc = s.pc) (hm : t.mem = s.mem) (hc : t.config = s.config) :
    t.fetch = s.fetch := by
  simp only [State.fetch, State.memRead, State.readByte, hp, hm, hc]

/-! Spans (R66, R67, R180, R212 to R214). -/

theorem memReadSpan_ok {s : State} {a n : Nat} (h : n = 0 ∨ a + n - 1 ≤ 0xFFF) :
    s.memReadSpan a n = .ok (Memory.readSpan s.config.font s.mem a n) := by
  unfold State.memReadSpan
  rw [if_neg (by omega)]

theorem memReadSpan_error {s : State} {a n : Nat} (hn : 1 ≤ n) (h : 0xFFF < a + n - 1) :
    s.memReadSpan a n = .error .memRange := by
  unfold State.memReadSpan
  rw [if_pos ⟨hn, h⟩]

theorem memWriteSpan_ok {s : State} {a : Nat} {bs : List Byte} (hlo : 0x200 ≤ a) (h : a + bs.length - 1 ≤ 0xFFF) :
    s.memWriteSpan a bs = .ok { s with mem := Memory.writeSpan s.config.font s.mem a bs } := by
  unfold State.memWriteSpan
  rw [if_neg (by omega), if_neg (by omega)]

theorem memWriteSpan_range {s : State} {a : Nat} {bs : List Byte} (h : 0xFFF < a + bs.length - 1) :
    s.memWriteSpan a bs = .error .memRange := by
  unfold State.memWriteSpan
  rw [if_pos h]

theorem memWriteSpan_protect {s : State} {a : Nat} {bs : List Byte} (h : a + bs.length - 1 ≤ 0xFFF)
    (hlo : a < 0x200) : s.memWriteSpan a bs = .error .storeProtect := by
  unfold State.memWriteSpan
  rw [if_neg (by omega), if_pos hlo]

/-- What a span store can answer. -/
theorem memWriteSpan_cases {s t : State} {a : Nat} {bs : List Byte} (h : s.memWriteSpan a bs = .ok t) :
    0x200 ≤ a ∧ a + bs.length - 1 ≤ 0xFFF ∧
      t = { s with mem := Memory.writeSpan s.config.font s.mem a bs } := by
  unfold State.memWriteSpan at h
  split at h
  · cases h
  · split at h
    · cases h
    · cases h; exact ⟨by omega, by omega, rfl⟩

/-- The span store is the store primitive of R67 repeated: storing one byte is `MemWrite`. -/
theorem memWriteSpan_singleton (s : State) (a : Nat) (b : Byte) : s.memWriteSpan a [b] = s.memWrite a b := rfl

/-- Storing a nonempty span is storing its tail and then its head with the primitives (R67), whenever every address
passes their checks. -/
theorem memWriteSpan_cons {s t : State} {a : Nat} {b c : Byte} {bs : List Byte}
    (h : s.memWriteSpan a (b :: c :: bs) = .ok t) :
    ∃ u, s.memWriteSpan (a + 1) (c :: bs) = .ok u ∧ u.memWrite a b = .ok t := by
  obtain ⟨hlo, hhi, rfl⟩ := memWriteSpan_cases h
  simp only [List.length_cons] at hhi
  refine ⟨_, memWriteSpan_ok (by omega) (by simp only [List.length_cons]; omega), ?_⟩
  unfold State.memWrite
  rw [if_neg (by omega), if_neg (by omega)]
  rfl

@[simp] theorem length_bcdDigits (v : Byte) : (bcdDigits v).length = 3 := rfl

@[simp] theorem length_registersTo (s : State) (x : Nibble) : (s.registersTo x).length = x.toNat + 1 := by
  have := nibble_lt x
  simp [State.registersTo]
  omega

theorem getElem_registersTo (s : State) (x k : Nibble) (h : k.toNat < (s.registersTo x).length) :
    (s.registersTo x)[k.toNat] = s.getV k := by
  simp [State.registersTo, State.getV]

/-! Stack (R27, R28). -/

theorem push_ok {s : State} {v : Word} (h : s.sp.val < 48) :
    s.push v = .ok { s with stack := s.stack.set s.sp.val v, sp := ⟨s.sp.val + 1, by omega⟩ } := by
  unfold State.push
  rw [dif_pos h]

theorem push_error {s : State} {v : Word} (h : s.sp.val = 48) : s.push v = .error .stackOverflow := by
  unfold State.push
  rw [dif_neg (by omega)]

theorem pop_ok {s : State} (h : s.sp.val ≠ 0) :
    s.pop = .ok (s.stack[s.sp.val - 1]'(by omega), { s with sp := ⟨s.sp.val - 1, by omega⟩ }) := by
  unfold State.pop
  rw [dif_neg h]

theorem pop_error {s : State} (h : s.sp.val = 0) : s.pop = .error .stackUnderflow := by
  unfold State.pop
  rw [dif_pos h]

/-! Keys (R190, R201, R235). -/

/-- `lowestKey` answers a key that is down, and the lowest one. -/
theorem lowestKey_some {s : State} {n : Nibble} (h : s.lowestKey = some n) :
    s.keyDown n.toNat = true ∧ ∀ j, j < n.toNat → s.keyDown j = false := by
  unfold State.lowestKey at h
  obtain ⟨k, hk, rfl⟩ := Option.map_eq_some_iff.mp h
  obtain ⟨hd, hlt, hlow⟩ := List.find?_range_eq_some.mp hk
  have hlt : k < 16 := by simpa using hlt
  have e : (BitVec.ofNat 4 k).toNat = k := by simp; omega
  rw [e]
  exact ⟨hd, fun j hj => by simpa using hlow j hj⟩

/-- `lowestKey` answers nothing exactly when every key is up. -/
theorem lowestKey_none {s : State} : s.lowestKey = none ↔ ∀ k, k < 16 → s.keyDown k = false := by
  simp [State.lowestKey, List.find?_eq_none]

/-- `keySelect` is the table's key where that one is down, and else the lowest. -/
theorem keySelect_cases (s : State) :
    (∃ k, s.config.keySelect.lookup s.keys = some k ∧ s.keyDown k.toNat = true ∧ s.keySelect = some k) ∨
    ((∀ k, s.config.keySelect.lookup s.keys = some k → s.keyDown k.toNat = false) ∧ s.keySelect = s.lowestKey) := by
  unfold State.keySelect
  split
  · next k e =>
    cases hk : s.keyDown k.toNat with
    | true => exact .inl ⟨k, e, hk, by simp⟩
    | false => exact .inr ⟨fun j hj => by rw [e] at hj; cases hj; exact hk, by simp⟩
  · next e => exact .inr ⟨fun k hk => (by rw [e] at hk; cases hk), rfl⟩

/-- The key the table gives, when it is down. -/
theorem keySelect_listed {s : State} {k : Nibble} (h : s.config.keySelect.lookup s.keys = some k)
    (hk : s.keyDown k.toNat = true) : s.keySelect = some k := by
  simp [State.keySelect, h, hk]

/-- The default parameter selects the lowest key (R201). -/
theorem keySelect_default {s : State} (h : s.config.keySelect = []) : s.keySelect = s.lowestKey := by
  simp [State.keySelect, h]

/-- Whatever the table, `keySelect` answers a key that is down: every table is a `KEY_SELECT` (R6). -/
theorem keySelect_some {s : State} {n : Nibble} (h : s.keySelect = some n) : s.keyDown n.toNat = true := by
  obtain ⟨k, -, hk, e⟩ | ⟨-, e⟩ := keySelect_cases s
  · rw [e] at h; cases h; exact hk
  · exact (lowestKey_some (e ▸ h)).1

/-- Whatever the table, `keySelect` answers nothing exactly when every key is up. -/
theorem keySelect_none {s : State} : s.keySelect = none ↔ ∀ k, k < 16 → s.keyDown k = false := by
  obtain ⟨k, -, hk, e⟩ | ⟨-, e⟩ := keySelect_cases s
  · rw [e]
    exact ⟨fun h => (by cases h), fun h => absurd (h k.toNat k.isLt) (by simp [hk])⟩
  · rw [e, lowestKey_none]

/-- Looking up in the table of a function gives the function's value. -/
theorem lookup_map_self (f : BitVec 16 → Nibble) (v : BitVec 16) :
    ∀ l : List (BitVec 16), v ∈ l → (l.map fun u => (u, f u)).lookup v = some (f v)
  | [], h => by cases h
  | u :: l, h => by
    by_cases e : v = u
    · subst e; simp
    · have hb : (v == u) = false := by simpa using e
      simp only [List.map_cons, List.lookup_cons, hb]
      exact lookup_map_self f v l (by simpa [e] using h)

/-- Every `KEY_SELECT` of R6, a function from non-zero key vectors to a key code that is down, is the `keySelect` of
some table: the parameter leaves none out. -/
theorem exists_keyTable (f : BitVec 16 → Nibble) (hf : ∀ v : BitVec 16, v ≠ 0 → v.getLsbD (f v).toNat = true) :
    ∃ table : KeyTable, ∀ s : State, s.config.keySelect = table → s.keys ≠ 0 → s.keySelect = some (f s.keys) := by
  refine ⟨((List.range (2 ^ 16)).map (BitVec.ofNat 16)).map fun v => (v, f v), fun s hs hk => ?_⟩
  refine keySelect_listed ?_ (hf _ hk)
  rw [hs]
  refine lookup_map_self f _ _ (List.mem_map.mpr ⟨s.keys.toNat, List.mem_range.mpr s.keys.isLt, ?_⟩)
  simp

/-! Flags (R35). -/

@[simp] theorem toNat_flagByte (f : Bool) : (flagByte f).toNat = if f then 1 else 0 := by
  cases f <;> rfl

theorem flagByte_eq_one (f : Bool) : flagByte f = 1 ↔ f = true := by
  cases f <;> simp [flagByte]

/-! The two shapes of flag-writing ALU instruction change registers only, `x[X]` and VF. -/

theorem flagThenResult_frame (flag : Byte → Byte → Bool) (op : Byte → Byte → Byte) (x y : Nibble) (s : State) :
    { flagThenResult flag op x y s with V := s.V } = s := rfl

theorem resultThenFlag_frame (out : Byte → Bool) (op : Byte → Byte) (x y : Nibble) (s : State) :
    { resultThenFlag out op x y s with V := s.V } = s := rfl

/-- The result is computed after VF was written, so an operand that is VF is the flag (R154, R155, R157). -/
theorem getV_flagThenResult_x (flag : Byte → Byte → Bool) (op : Byte → Byte → Byte) (x y : Nibble) (s : State) :
    (flagThenResult flag op x y s).getV x =
      op (if x = regF then flagByte (flag (s.getV x) (s.getV y)) else s.getV x)
        (if y = regF then flagByte (flag (s.getV x) (s.getV y)) else s.getV y) := by
  simp only [flagThenResult, getV_setV_self, getV_setV]

theorem getV_flagThenResult_flag (flag : Byte → Byte → Bool) (op : Byte → Byte → Byte) {x : Nibble} (y : Nibble)
    (s : State) (h : x ≠ regF) :
    (flagThenResult flag op x y s).getV regF = flagByte (flag (s.getV x) (s.getV y)) := by
  simp only [flagThenResult, getV_setV_ne _ _ h.symm, getV_setV_self]

theorem getV_flagThenResult_ne (flag : Byte → Byte → Bool) (op : Byte → Byte → Byte) {x n : Nibble} (y : Nibble)
    (s : State) (hx : n ≠ x) (hF : n ≠ regF) : (flagThenResult flag op x y s).getV n = s.getV n := by
  simp only [flagThenResult, getV_setV_ne _ _ hx, getV_setV_ne _ _ hF]

/-- The flag is written last, so it survives for `X = F` (R156, R158). -/
theorem getV_resultThenFlag_flag (out : Byte → Bool) (op : Byte → Byte) (x y : Nibble) (s : State) :
    (resultThenFlag out op x y s).getV regF = flagByte (out (s.shiftOperand x y)) := by
  simp only [resultThenFlag, getV_setV_self]

theorem getV_resultThenFlag_x (out : Byte → Bool) (op : Byte → Byte) {x : Nibble} (y : Nibble) (s : State)
    (h : x ≠ regF) : (resultThenFlag out op x y s).getV x = op (s.shiftOperand x y) := by
  simp only [resultThenFlag, getV_setV_ne _ _ h, getV_setV_self]

theorem getV_resultThenFlag_ne (out : Byte → Bool) (op : Byte → Byte) {x n : Nibble} (y : Nibble) (s : State)
    (hx : n ≠ x) (hF : n ≠ regF) : (resultThenFlag out op x y s).getV n = s.getV n := by
  simp only [resultThenFlag, getV_setV_ne _ _ hx, getV_setV_ne _ _ hF]

/-! Timers (R245). -/

@[simp] theorem toNat_countDown (t : Byte) : (countDown t).toNat = t.toNat - 1 := by
  unfold countDown
  split
  · next h => subst h; rfl
  · next h =>
    have h0 : t.toNat ≠ 0 := fun e => h (BitVec.eq_of_toNat_eq e)
    have := t.isLt
    have h1 : (1 : Byte).toNat = 1 := rfl
    rw [BitVec.toNat_sub, h1]
    omega

end Sys2Proof.Machine
end

