-- ==== Sys2Proof/Laws/Step.lean ====
section
/-! SUPPORT. What one step can do, said once: the events, the Tick and the cases of each. The
instructions are in Laws/Exec.lean. -/

namespace Sys2Proof.Machine

/-! Frames. -/

/-- A state that differs from `s` in registers only changes only registers. -/
theorem changesOnly_of_V {s t : State} {regs : List Nibble} (h : { t with V := s.V } = s)
    (hV : ∀ n, n ∉ regs → t.getV n = s.getV n) : s.ChangesOnly t regs [] := by
  obtain ⟨V, I, pc, stack, sp, DT, ST, mem, disp, dd, keys, run, lo, cfg, env⟩ := t
  cases s
  simp only [State.mk.injEq] at h
  obtain ⟨-, rfl, rfl, rfl, rfl, rfl, rfl, rfl, rfl, rfl, rfl, rfl, rfl, rfl, rfl⟩ := h
  exact ⟨hV, fun _ => rfl, fun _ => rfl, fun _ => ⟨rfl, rfl⟩, fun _ => rfl, fun _ => rfl, fun _ _ => rfl,
    fun _ _ _ => rfl, fun _ => rfl, rfl, rfl, rfl, rfl, rfl⟩

/-- Writing one register changes only that register. -/
theorem setV_changesOnly (s : State) (n : Nibble) (b : Byte) : s.ChangesOnly (s.setV n b) [n] [] :=
  changesOnly_of_V rfl fun m hm => getV_setV_ne s b (by simpa using hm)

/-- Writing `pc` changes only `pc`. -/
theorem pc_changesOnly (s : State) (a : Word) : s.ChangesOnly { s with pc := a } [] [.pc] :=
  ⟨fun _ _ => rfl, fun _ => rfl, fun h => absurd (by simp) h, fun _ => ⟨rfl, rfl⟩, fun _ => rfl, fun _ => rfl,
    fun _ _ => rfl, fun _ _ _ => rfl, fun _ => rfl, rfl, rfl, rfl, rfl, rfl⟩

/-- A conditional skip changes only `pc`. -/
theorem skipIf_changesOnly (s : State) (c : Bool) : s.ChangesOnly (s.skipIf c) [] [.pc] := by
  have : s.skipIf c = { s with pc := if c then s.pc + 2 else s.pc } := by cases c <;> rfl
  rw [this]
  exact pc_changesOnly s _

/-- Writing `I` changes only `I`. -/
theorem index_changesOnly (s : State) (a : Word) : s.ChangesOnly { s with I := a } [] [.index] :=
  ⟨fun _ _ => rfl, fun h => absurd (by simp) h, fun _ => rfl, fun _ => ⟨rfl, rfl⟩, fun _ => rfl, fun _ => rfl,
    fun _ _ => rfl, fun _ _ _ => rfl, fun _ => rfl, rfl, rfl, rfl, rfl, rfl⟩

/-! Events. -/

/-- The event a step performs, and the state it performs it in. -/
theorem step_eq_perform {s : State} {e : Event} {rest : List Event} (h : s.env.agenda = e :: rest) :
    step s = State.perform { s with env := { s.env with agenda := rest } } e := by
  simp only [step, State.nextEvent, h]

theorem step_eq_tick {s : State} (h : s.env.agenda = []) :
    step s = State.tick { s with env := { s.env with draws := s.env.draws + 1 } }
      (Config.freeByte s.env.draws) := by
  simp only [step, State.nextEvent, h]

/-- Everything a step that answers a next state can be: a Tick, or one of the other events, performed in `s` with
only its environment changed. -/
theorem step_cases {s t : State} (h : step s = .next t) :
    ∃ env : Environment,
      (∃ rnd, State.tick { s with env := env } rnd = .next t) ∨
      t = State.timerStep { s with env := env } ∨
      (∃ k, t = State.setKeys { s with env := env } k) ∨
      t = State.renderAck { s with env := env } ∨
      ((∃ rest, s.env.agenda = .reset :: rest) ∧ t = State.resetEvent { s with env := env }) ∨
      (∃ rom, State.loadRom { s with env := env } rom = .next t) ∨
      State.skipFault { s with env := env } = .next t := by
  cases ha : s.env.agenda with
  | nil => exact ⟨_, .inl ⟨_, (step_eq_tick ha).symm.trans h⟩⟩
  | cons e rest =>
    have h' := (step_eq_perform ha).symm.trans h
    refine ⟨{ s.env with agenda := rest }, ?_⟩
    cases e with
    | tick rnd => exact .inl ⟨rnd, h'⟩
    | timerStep => exact .inr (.inl (by cases h'; rfl))
    | setKeys k => exact .inr (.inr (.inl ⟨k, by cases h'; rfl⟩))
    | renderAck => exact .inr (.inr (.inr (.inl (by cases h'; rfl))))
    | reset => exact .inr (.inr (.inr (.inr (.inl ⟨⟨rest, rfl⟩, by cases h'; rfl⟩))))
    | loadRom rom => exact .inr (.inr (.inr (.inr (.inr (.inl ⟨rom, h'⟩)))))
    | skipFault => exact .inr (.inr (.inr (.inr (.inr (.inr h')))))

/-- A Tick that answers a next state: the machine was running, `LoadROM` was over, and one of the two faults before
execution was entered, or the decoded instruction ran. -/
theorem tick_cases {s t : State} {rnd : Byte} (h : s.tick rnd = .next t) :
    s.run = .running ∧ s.loadOpen = false ∧
      ((0xFFE < s.pc.toNat ∧ t = (s.openTick rnd).enterFault .memRange s.pc none) ∨
       (s.pc.toNat ≤ 0xFFE ∧ ∃ w, (s.openTick rnd).fetch = .ok w ∧
         ((∃ e, decode w = .error e ∧ t = (s.openTick rnd).enterFault .unknownOpcode s.pc (some w)) ∨
          (∃ i, decode w = .ok i ∧ exec i (s.openTick rnd).advancePc = .next t)))) := by
  unfold State.tick at h
  split at h
  · cases h
  · cases h
  · next hr hl =>
    refine ⟨hr, hl, ?_⟩
    unfold State.fetchAndExecute at h
    by_cases hp : (s.openTick rnd).pc.toNat ≤ 0xFFE
    · refine .inr ⟨hp, _, fetch_ok hp, ?_⟩
      rw [fetch_ok hp] at h
      simp only at h
      split at h
      · next e he => exact .inl ⟨e, he, by cases h; rfl⟩
      · next i hi => exact .inr ⟨i, hi, h⟩
    · refine .inl ⟨by simpa using hp, ?_⟩
      rw [fetch_error (by omega)] at h
      cases h
      rfl

/-- A Tick of a running machine whose fetched word decodes runs the instruction, from the state with `pc` advanced. -/
theorem tick_ok {s : State} {i : Instr} (rnd : Byte) (hr : s.run = .running) (hl : s.loadOpen = false)
    (hp : s.pc.toNat ≤ 0xFFE)
    (hd : decode (opcodeOfBytes (s.readByte s.pc.toNat) (s.readByte (s.pc.toNat + 1))) = .ok i) :
    s.tick rnd = exec i (s.openTick rnd).advancePc := by
  have hf : (s.openTick rnd).fetch = .ok (opcodeOfBytes (s.readByte s.pc.toNat) (s.readByte (s.pc.toNat + 1))) :=
    fetch_ok (s := s.openTick rnd) hp
  simp only [State.tick, hr, hl, State.fetchAndExecute, hf, hd]

/-- A Tick whose fetched word is no instruction enters the unknown-opcode fault. -/
theorem tick_unknown {s : State} {e : Reject} (rnd : Byte) (hr : s.run = .running) (hl : s.loadOpen = false)
    (hp : s.pc.toNat ≤ 0xFFE)
    (hd : decode (opcodeOfBytes (s.readByte s.pc.toNat) (s.readByte (s.pc.toNat + 1))) = .error e) :
    s.tick rnd = .next ((s.openTick rnd).enterFault .unknownOpcode s.pc
      (some (opcodeOfBytes (s.readByte s.pc.toNat) (s.readByte (s.pc.toNat + 1))))) := by
  have hf : (s.openTick rnd).fetch = .ok (opcodeOfBytes (s.readByte s.pc.toNat) (s.readByte (s.pc.toNat + 1))) :=
    fetch_ok (s := s.openTick rnd) hp
  simp only [State.tick, hr, hl, State.fetchAndExecute, hf, hd, State.openTick_pc]

/-- A Tick of a faulted machine is not enabled (R238). -/
theorem tick_halted {s : State} {r : FaultRecord} (rnd : Byte) (hr : s.run = .faulted r) :
    s.tick rnd = .fault (.halted r) := by
  simp only [State.tick, hr]

/-- A Tick of a running machine before `LoadROM` is refused (R274). -/
theorem tick_notLoaded {s : State} (rnd : Byte) (hr : s.run = .running) (hl : s.loadOpen = true) :
    s.tick rnd = .refused .notLoaded := by
  simp only [State.tick, hr, hl]

/-- Loading a ROM that answers a next state (R273). -/
theorem loadRom_cases {s t : State} {rom : List Byte} (h : s.loadRom rom = .next t) :
    s.loadOpen = true ∧ rom.length ≤ 3584 ∧
      t = { s with mem := Memory.writeSpan s.config.font s.mem 0x200 rom, loadOpen := false } := by
  unfold State.loadRom at h
  split at h
  · cases h
  · next hl =>
    split at h
    · cases h
    · cases h; exact ⟨by simpa using hl, by omega, rfl⟩

/-- The skip move that answers a next state (U4). -/
theorem skipFault_cases {s t : State} (h : s.skipFault = .next t) :
    s.config.faultPolicy = .skip ∧ ∃ r, s.run = .faulted r ∧ r.kind = .unknownOpcode ∧
      t = { s with pc := r.pc + 2, run := .running } := by
  unfold State.skipFault at h
  split at h
  · next r hp hr =>
    split at h
    · next hk => cases h; exact ⟨hp, r, hr, hk, rfl⟩
    · cases h
  · cases h
  · cases h

/-! Runs. -/

/-- A run of `n + 1` steps whose first step succeeds goes on from there. -/
theorem core_run_succ {s t : State} (n : Nat) (h : step s = .next t) :
    Sys2Proof.core.run (n + 1) s = Sys2Proof.core.run n t := by
  simp only [Host.Core.run, Sys2Proof.core, h]

/-- The end of a run depends on `run`, `pc` and what is fetched there only (R275). -/
theorem endOfRun_congr {s t : State} (h : s.EndOfRun) (hr : t.run = s.run) (hp : t.pc = s.pc) (hm : t.mem = s.mem)
    (hc : t.config = s.config) : t.EndOfRun := by
  obtain ⟨h1, nnn, h2, h3⟩ := h
  exact ⟨hr.trans h1, nnn, hp.trans h2, (fetch_congr hp hm hc).trans h3⟩

/-- An induction over runs, packaged once: what holds at the start and is kept by every step holds in every reachable
state. -/
theorem reachable_induction {P : State → Prop} {s t : State} (h0 : P s)
    (hstep : ∀ u v, P u → step u = .next v → P v) (h : Reachable s t) : P t := by
  induction h with
  | refl => exact h0
  | step _ hs ih => exact hstep _ _ ih hs

end Sys2Proof.Machine
end

