-- ==== Sys2Proof/Laws/Exec.lean ====
section
/-! SUPPORT. What each instruction that can fault or wait may answer, said once: the fault with its condition, or the
result with its condition. The other instructions answer `.next` of one expression by definition. -/

namespace Sys2Proof.Machine

/-- The fault state an instruction enters from the state it runs in (R236). -/
abbrev State.faulted (s : State) (i : Instr) (k : FaultKind) : State :=
  s.enterFault k (s.pc - 2) (some (encode i))

theorem execRet_zero {s : State} {u : Nibble} (h : s.sp.val = 0) :
    exec (.ret u) s = .next (s.faulted (.ret u) .stackUnderflow) := by
  simp only [exec, execRet, pop_error h]; rfl

theorem execRet_pos {s : State} {u : Nibble} (h : s.sp.val ≠ 0) :
    exec (.ret u) s = .next { s with
      pc := s.stack[s.sp.val - 1]'(by omega), sp := ⟨s.sp.val - 1, by omega⟩ } := by
  simp only [exec, execRet, pop_ok h]; rfl

theorem execCall_full {s : State} {nnn : Imm12} (h : s.sp.val = 48) :
    exec (.call nnn) s = .next (s.faulted (.call nnn) .stackOverflow) := by
  simp only [exec, execCall, push_error h]; rfl

theorem execCall_room {s : State} {nnn : Imm12} (h : s.sp.val < 48) :
    exec (.call nnn) s = .next { s with
      stack := s.stack.set s.sp.val s.pc, sp := ⟨s.sp.val + 1, by omega⟩, pc := jumpTarget nnn } := by
  simp only [exec, execCall, push_ok h]; rfl

theorem execDrw_error {s : State} {x y n : Nibble} (hn : 1 ≤ n.toNat) (h : 0xFFF < s.I.toNat + n.toNat - 1) :
    exec (.drw x y n) s = .next (s.faulted (.drw x y n) .memRange) := by
  simp only [exec, execDrw, State.indexAddress, memReadSpan_error hn h]; rfl

theorem execDrw_ok {s : State} {x y n : Nibble} (h : n.toNat = 0 ∨ s.I.toNat + n.toNat - 1 ≤ 0xFFF) :
    exec (.drw x y n) s =
      .next (s.drawSprite x y (Memory.readSpan s.config.font s.mem s.I.toNat n.toNat)) := by
  simp only [exec, execDrw, State.indexAddress, memReadSpan_ok h]; rfl

theorem execSkp_error {s : State} {x : Nibble} (h : 15 < (s.getV x).toNat) :
    exec (.skp x) s = .next (s.faulted (.skp x) .keyIndex) := by
  simp only [exec, execSkp, State.keyCode, if_pos h]; rfl

theorem execSkp_ok {s : State} {x : Nibble} (h : (s.getV x).toNat ≤ 15) :
    exec (.skp x) s = .next (s.skipIf (s.keyDown (s.getV x).toNat)) := by
  simp only [exec, execSkp, State.keyCode, if_neg (Nat.not_lt.mpr h)]; rfl

theorem execSknp_error {s : State} {x : Nibble} (h : 15 < (s.getV x).toNat) :
    exec (.sknp x) s = .next (s.faulted (.sknp x) .keyIndex) := by
  simp only [exec, execSknp, State.keyCode, if_pos h]; rfl

theorem execSknp_ok {s : State} {x : Nibble} (h : (s.getV x).toNat ≤ 15) :
    exec (.sknp x) s = .next (s.skipIf (!s.keyDown (s.getV x).toNat)) := by
  simp only [exec, execSknp, State.keyCode, if_neg (Nat.not_lt.mpr h)]; rfl

theorem execLdVxK_none {s : State} {x : Nibble} (h : s.keySelect = none) :
    exec (.ldVxK x) s = .next { s with pc := s.pc - 2 } := by
  simp only [exec, execLdVxK, h]

theorem execLdVxK_some {s : State} {x k : Nibble} (h : s.keySelect = some k) :
    exec (.ldVxK x) s = .next (s.setV x (k.setWidth 8)) := by
  simp only [exec, execLdVxK, h]

theorem execLdB_range {s : State} {x : Nibble} (h : 0xFFF < s.I.toNat + 2) :
    exec (.ldB x) s = .next (s.faulted (.ldB x) .memRange) := by
  have h' : 0xFFF < s.I.toNat + (bcdDigits (s.getV x)).length - 1 := h
  simp only [exec, execLdB, State.indexAddress, memWriteSpan_range h']; rfl

theorem execLdB_protect {s : State} {x : Nibble} (h : s.I.toNat < 0x200) :
    exec (.ldB x) s = .next (s.faulted (.ldB x) .storeProtect) := by
  have h' : s.I.toNat + (bcdDigits (s.getV x)).length - 1 ≤ 0xFFF := by simp only [length_bcdDigits]; omega
  simp only [exec, execLdB, State.indexAddress, memWriteSpan_protect h' h]; rfl

theorem execLdB_ok {s : State} {x : Nibble} (hlo : 0x200 ≤ s.I.toNat) (h : s.I.toNat + 2 ≤ 0xFFF) :
    exec (.ldB x) s = .next { s with
      mem := Memory.writeSpan s.config.font s.mem s.I.toNat (bcdDigits (s.getV x)) } := by
  have h' : s.I.toNat + (bcdDigits (s.getV x)).length - 1 ≤ 0xFFF := h
  simp only [exec, execLdB, State.indexAddress, memWriteSpan_ok hlo h']; rfl

theorem execStRegs_range {s : State} {x : Nibble} (h : 0xFFF < s.I.toNat + x.toNat) :
    exec (.stRegs x) s = .next (s.faulted (.stRegs x) .memRange) := by
  have h' : 0xFFF < s.I.toNat + (s.registersTo x).length - 1 := by rw [length_registersTo]; omega
  simp only [exec, execStRegs, State.indexAddress, memWriteSpan_range h']; rfl

theorem execStRegs_protect {s : State} {x : Nibble} (h : s.I.toNat < 0x200) :
    exec (.stRegs x) s = .next (s.faulted (.stRegs x) .storeProtect) := by
  have := nibble_lt x
  have h' : s.I.toNat + (s.registersTo x).length - 1 ≤ 0xFFF := by rw [length_registersTo]; omega
  simp only [exec, execStRegs, State.indexAddress, memWriteSpan_protect h' h]; rfl

theorem execStRegs_ok {s : State} {x : Nibble} (hlo : 0x200 ≤ s.I.toNat) (h : s.I.toNat + x.toNat ≤ 0xFFF) :
    exec (.stRegs x) s = .next (State.advanceIndex { s with
      mem := Memory.writeSpan s.config.font s.mem s.I.toNat (s.registersTo x) } x) := by
  have h' : s.I.toNat + (s.registersTo x).length - 1 ≤ 0xFFF := by rw [length_registersTo]; omega
  simp only [exec, execStRegs, State.indexAddress, memWriteSpan_ok hlo h']; rfl

theorem execLdRegs_range {s : State} {x : Nibble} (h : 0xFFF < s.I.toNat + x.toNat) :
    exec (.ldRegs x) s = .next (s.faulted (.ldRegs x) .memRange) := by
  have h' : 0xFFF < s.I.toNat + (x.toNat + 1) - 1 := by omega
  simp only [exec, execLdRegs, State.indexAddress, memReadSpan_error (by omega) h']; rfl

theorem execLdRegs_ok {s : State} {x : Nibble} (h : s.I.toNat + x.toNat ≤ 0xFFF) :
    exec (.ldRegs x) s = .next ((s.loadRegisters
      (Memory.readSpan s.config.font s.mem s.I.toNat (x.toNat + 1))).advanceIndex x) := by
  have h' : x.toNat + 1 = 0 ∨ s.I.toNat + (x.toNat + 1) - 1 ≤ 0xFFF := by omega
  simp only [exec, execLdRegs, State.indexAddress, memReadSpan_ok h']; rfl

/-- Every outcome of every instruction is its fault, entered from `s`, or a result that leaves keys, run state,
configuration, environment and the load gate as they were. No instruction raises the unknown-opcode fault. -/
theorem exec_fault_or_result {i : Instr} {s t : State} (h : exec i s = .next t) :
    (∃ k, k ≠ .unknownOpcode ∧ t = s.faulted i k) ∨
    (t.keys = s.keys ∧ t.run = s.run ∧ t.loadOpen = s.loadOpen ∧ t.config = s.config ∧ t.env = s.env) := by
  cases i with
  | ret u =>
    by_cases hs : s.sp.val = 0
    · rw [execRet_zero hs] at h; cases h; exact .inl ⟨_, FaultKind.noConfusion, rfl⟩
    · rw [execRet_pos hs] at h; cases h; exact .inr ⟨rfl, rfl, rfl, rfl, rfl⟩
  | call nnn =>
    by_cases hs : s.sp.val = 48
    · rw [execCall_full hs] at h; cases h; exact .inl ⟨_, FaultKind.noConfusion, rfl⟩
    · rw [execCall_room (by omega)] at h; cases h; exact .inr ⟨rfl, rfl, rfl, rfl, rfl⟩
  | drw x y n =>
    by_cases hs : n.toNat = 0 ∨ s.I.toNat + n.toNat - 1 ≤ 0xFFF
    · rw [execDrw_ok hs] at h; cases h; exact .inr ⟨rfl, rfl, rfl, rfl, rfl⟩
    · rw [execDrw_error (by omega) (by omega)] at h; cases h; exact .inl ⟨_, FaultKind.noConfusion, rfl⟩
  | skp x =>
    by_cases hs : (s.getV x).toNat ≤ 15
    · rw [execSkp_ok hs] at h; cases h; simp
    · rw [execSkp_error (by omega)] at h; cases h; exact .inl ⟨_, FaultKind.noConfusion, rfl⟩
  | sknp x =>
    by_cases hs : (s.getV x).toNat ≤ 15
    · rw [execSknp_ok hs] at h; cases h; simp
    · rw [execSknp_error (by omega)] at h; cases h; exact .inl ⟨_, FaultKind.noConfusion, rfl⟩
  | ldVxK x =>
    cases hk : s.keySelect with
    | none => rw [execLdVxK_none hk] at h; cases h; exact .inr ⟨rfl, rfl, rfl, rfl, rfl⟩
    | some k => rw [execLdVxK_some hk] at h; cases h; exact .inr ⟨rfl, rfl, rfl, rfl, rfl⟩
  | ldB x =>
    by_cases h1 : 0xFFF < s.I.toNat + 2
    · rw [execLdB_range h1] at h; cases h; exact .inl ⟨_, FaultKind.noConfusion, rfl⟩
    · by_cases h2 : s.I.toNat < 0x200
      · rw [execLdB_protect h2] at h; cases h; exact .inl ⟨_, FaultKind.noConfusion, rfl⟩
      · rw [execLdB_ok (by omega) (by omega)] at h; cases h; exact .inr ⟨rfl, rfl, rfl, rfl, rfl⟩
  | stRegs x =>
    by_cases h1 : 0xFFF < s.I.toNat + x.toNat
    · rw [execStRegs_range h1] at h; cases h; exact .inl ⟨_, FaultKind.noConfusion, rfl⟩
    · by_cases h2 : s.I.toNat < 0x200
      · rw [execStRegs_protect h2] at h; cases h; exact .inl ⟨_, FaultKind.noConfusion, rfl⟩
      · rw [execStRegs_ok (by omega) (by omega)] at h; cases h; simp
  | ldRegs x =>
    by_cases h1 : 0xFFF < s.I.toNat + x.toNat
    · rw [execLdRegs_range h1] at h; cases h; exact .inl ⟨_, FaultKind.noConfusion, rfl⟩
    · rw [execLdRegs_ok (by omega)] at h; cases h; simp
  | seImm x nn => cases h; simp
  | sneImm x nn => cases h; simp
  | seReg x y u => cases h; simp
  | sneReg x y u => cases h; simp
  | _ => cases h; exact .inr ⟨rfl, rfl, rfl, rfl, rfl⟩

/-- No instruction changes the configuration. -/
theorem exec_config {i : Instr} {s t : State} (h : exec i s = .next t) : t.config = s.config := by
  rcases exec_fault_or_result h with ⟨k, -, rfl⟩ | ⟨-, -, -, h, -⟩
  · rfl
  · exact h

/-- Memory after any instruction: as it was, or with one span stored at `I`, inside 0x200..0xFFF. -/
theorem exec_mem {i : Instr} {s t : State} (h : exec i s = .next t) :
    t.mem = s.mem ∨ ∃ bs : List Byte, 0x200 ≤ s.I.toNat ∧ s.I.toNat + bs.length ≤ 4096 ∧
      t.mem = Memory.writeSpan s.config.font s.mem s.I.toNat bs := by
  cases i with
  | ret u =>
    by_cases hs : s.sp.val = 0
    · rw [execRet_zero hs] at h; cases h; simp
    · rw [execRet_pos hs] at h; cases h; simp
  | call nnn =>
    by_cases hs : s.sp.val = 48
    · rw [execCall_full hs] at h; cases h; simp
    · rw [execCall_room (by omega)] at h; cases h; simp
  | drw x y n =>
    by_cases hs : n.toNat = 0 ∨ s.I.toNat + n.toNat - 1 ≤ 0xFFF
    · rw [execDrw_ok hs] at h; cases h; simp
    · rw [execDrw_error (by omega) (by omega)] at h; cases h; simp
  | skp x =>
    by_cases hs : (s.getV x).toNat ≤ 15
    · rw [execSkp_ok hs] at h; cases h; simp
    · rw [execSkp_error (by omega)] at h; cases h; simp
  | sknp x =>
    by_cases hs : (s.getV x).toNat ≤ 15
    · rw [execSknp_ok hs] at h; cases h; simp
    · rw [execSknp_error (by omega)] at h; cases h; simp
  | ldVxK x =>
    cases hk : s.keySelect with
    | none => rw [execLdVxK_none hk] at h; cases h; simp
    | some k => rw [execLdVxK_some hk] at h; cases h; simp
  | ldB x =>
    by_cases h1 : 0xFFF < s.I.toNat + 2
    · rw [execLdB_range h1] at h; cases h; simp
    · by_cases h2 : s.I.toNat < 0x200
      · rw [execLdB_protect h2] at h; cases h; simp
      · rw [execLdB_ok (by omega) (by omega)] at h; cases h
        exact .inr ⟨_, by omega, by simp; omega, rfl⟩
  | stRegs x =>
    by_cases h1 : 0xFFF < s.I.toNat + x.toNat
    · rw [execStRegs_range h1] at h; cases h; simp
    · by_cases h2 : s.I.toNat < 0x200
      · rw [execStRegs_protect h2] at h; cases h; simp
      · rw [execStRegs_ok (by omega) (by omega)] at h; cases h
        exact .inr ⟨s.registersTo x, by omega, by simp; omega, by simp⟩
  | ldRegs x =>
    by_cases h1 : 0xFFF < s.I.toNat + x.toNat
    · rw [execLdRegs_range h1] at h; cases h; simp
    · rw [execLdRegs_ok (by omega)] at h; cases h; simp
  | seImm x nn => cases h; simp
  | sneImm x nn => cases h; simp
  | seReg x y u => cases h; simp
  | sneReg x y u => cases h; simp
  | _ => cases h; simp [flagThenResult, resultThenFlag]

end Sys2Proof.Machine
end

