-- ==== Sys2Proof/Laws/PerInstr.lean ====
section
/-! SUPPORT. Per instruction: its opcode matches its row of the opcode table (30_encoding.md R103). -/

namespace Sys2Proof

/-- The `mask` column of an instruction's row. -/
def tableMask : Instr → Word
  | .cls _ => 0xF0FF
  | .ret _ => 0xF0FF
  | .jp _ => 0xF000
  | .call _ => 0xF000
  | .seImm _ _ => 0xF000
  | .sneImm _ _ => 0xF000
  | .seReg _ _ _ => 0xF000
  | .ldImm _ _ => 0xF000
  | .addImm _ _ => 0xF000
  | .ldReg _ _ => 0xF00F
  | .orReg _ _ => 0xF00F
  | .andReg _ _ => 0xF00F
  | .xorReg _ _ => 0xF00F
  | .addReg _ _ => 0xF00F
  | .sub _ _ => 0xF00F
  | .shr _ _ => 0xF00F
  | .subn _ _ => 0xF00F
  | .shl _ _ => 0xF00F
  | .sneReg _ _ _ => 0xF000
  | .ldI _ => 0xF000
  | .jpV0 _ => 0xF000
  | .rnd _ _ => 0xF000
  | .drw _ _ _ => 0xF000
  | .skp _ => 0xF0FF
  | .sknp _ => 0xF0FF
  | .ldVxDt _ => 0xF0FF
  | .ldVxK _ => 0xF0FF
  | .ldDtVx _ => 0xF0FF
  | .ldStVx _ => 0xF0FF
  | .addI _ => 0xF0FF
  | .ldF _ => 0xF0FF
  | .ldB _ => 0xF0FF
  | .stRegs _ => 0xF0FF
  | .ldRegs _ => 0xF0FF

/-- The `match` column of an instruction's row. -/
def tableMatch : Instr → Word
  | .cls _ => 0x00E0
  | .ret _ => 0x00EE
  | .jp _ => 0x1000
  | .call _ => 0x2000
  | .seImm _ _ => 0x3000
  | .sneImm _ _ => 0x4000
  | .seReg _ _ _ => 0x5000
  | .ldImm _ _ => 0x6000
  | .addImm _ _ => 0x7000
  | .ldReg _ _ => 0x8000
  | .orReg _ _ => 0x8001
  | .andReg _ _ => 0x8002
  | .xorReg _ _ => 0x8003
  | .addReg _ _ => 0x8004
  | .sub _ _ => 0x8005
  | .shr _ _ => 0x8006
  | .subn _ _ => 0x8007
  | .shl _ _ => 0x800E
  | .sneReg _ _ _ => 0x9000
  | .ldI _ => 0xA000
  | .jpV0 _ => 0xB000
  | .rnd _ _ => 0xC000
  | .drw _ _ _ => 0xD000
  | .skp _ => 0xE09E
  | .sknp _ => 0xE0A1
  | .ldVxDt _ => 0xF007
  | .ldVxK _ => 0xF00A
  | .ldDtVx _ => 0xF015
  | .ldStVx _ => 0xF018
  | .addI _ => 0xF01E
  | .ldF _ => 0xF029
  | .ldB _ => 0xF033
  | .stRegs _ => 0xF055
  | .ldRegs _ => 0xF065

/-! A table mask clears the operand fields of a format and keeps the others. -/

theorem and_zero_lit {w : Nat} (v : BitVec w) : v &&& 0 = 0 := BitVec.and_zero

theorem formNNN_masked (i : Nibble) (nnn : Imm12) : formNNN i nnn &&& 0xF000 = formNNN i 0 := by
  have h : formNNN i nnn &&& formNNN 0xF 0 = formNNN (i &&& 0xF) (nnn &&& 0) := BitVec.and_append
  rwa [show i &&& 0xF = i from BitVec.and_allOnes, and_zero_lit] at h

theorem formXNN_masked (i x : Nibble) (nn : Byte) : formXNN i x nn &&& 0xF000 = formXNN i 0 0 := by
  have h : formXNN i x nn &&& formXNN 0xF 0 0 = ((i ++ x) &&& ((0xF : Nibble) ++ (0 : Nibble))) ++ (nn &&& 0) :=
    BitVec.and_append
  rwa [BitVec.and_append, show i &&& 0xF = i from BitVec.and_allOnes, and_zero_lit, and_zero_lit] at h

theorem formXNN_masked_x (i x : Nibble) (nn : Byte) : formXNN i x nn &&& 0xF0FF = formXNN i 0 nn := by
  have h : formXNN i x nn &&& formXNN 0xF 0 0xFF = ((i ++ x) &&& ((0xF : Nibble) ++ (0 : Nibble))) ++ (nn &&& 0xFF) :=
    BitVec.and_append
  rwa [BitVec.and_append, show i &&& 0xF = i from BitVec.and_allOnes, and_zero_lit,
    show nn &&& 0xFF = nn from BitVec.and_allOnes] at h

theorem formXYN_masked (i x y n : Nibble) : formXYN i x y n &&& 0xF000 = formXYN i 0 0 0 := by
  have h : formXYN i x y n &&& formXYN 0xF 0 0 0 =
      ((i ++ x ++ y) &&& ((0xF : Nibble) ++ (0 : Nibble) ++ (0 : Nibble))) ++ (n &&& 0) := BitVec.and_append
  rwa [BitVec.and_append, BitVec.and_append, show i &&& 0xF = i from BitVec.and_allOnes, and_zero_lit, and_zero_lit,
    and_zero_lit] at h

theorem formXYN_masked_xy (i x y n : Nibble) : formXYN i x y n &&& 0xF00F = formXYN i 0 0 n := by
  have h : formXYN i x y n &&& formXYN 0xF 0 0 0xF =
      ((i ++ x ++ y) &&& ((0xF : Nibble) ++ (0 : Nibble) ++ (0 : Nibble))) ++ (n &&& 0xF) := BitVec.and_append
  rwa [BitVec.and_append, BitVec.and_append, show i &&& 0xF = i from BitVec.and_allOnes, and_zero_lit, and_zero_lit,
    show n &&& 0xF = n from BitVec.and_allOnes] at h

namespace Laws.MaskMatch

/-- The opcode under the row's mask is the row's match word. -/
def Statement (i : Instr) : Prop :=
  encode i &&& tableMask i = tableMatch i

theorem cls (u : Nibble) : Statement (.cls u) :=
  formXNN_masked_x 0x0 u 0xE0
theorem ret (u : Nibble) : Statement (.ret u) :=
  formXNN_masked_x 0x0 u 0xEE
theorem jp (nnn : Imm12) : Statement (.jp nnn) :=
  formNNN_masked 0x1 nnn
theorem call (nnn : Imm12) : Statement (.call nnn) :=
  formNNN_masked 0x2 nnn
theorem seImm (x : Nibble) (nn : Byte) : Statement (.seImm x nn) :=
  formXNN_masked 0x3 x nn
theorem sneImm (x : Nibble) (nn : Byte) : Statement (.sneImm x nn) :=
  formXNN_masked 0x4 x nn
theorem seReg (x : Nibble) (y : Nibble) (u : Nibble) : Statement (.seReg x y u) :=
  formXYN_masked 0x5 x y u
theorem ldImm (x : Nibble) (nn : Byte) : Statement (.ldImm x nn) :=
  formXNN_masked 0x6 x nn
theorem addImm (x : Nibble) (nn : Byte) : Statement (.addImm x nn) :=
  formXNN_masked 0x7 x nn
theorem ldReg (x : Nibble) (y : Nibble) : Statement (.ldReg x y) :=
  formXYN_masked_xy 0x8 x y 0x0
theorem orReg (x : Nibble) (y : Nibble) : Statement (.orReg x y) :=
  formXYN_masked_xy 0x8 x y 0x1
theorem andReg (x : Nibble) (y : Nibble) : Statement (.andReg x y) :=
  formXYN_masked_xy 0x8 x y 0x2
theorem xorReg (x : Nibble) (y : Nibble) : Statement (.xorReg x y) :=
  formXYN_masked_xy 0x8 x y 0x3
theorem addReg (x : Nibble) (y : Nibble) : Statement (.addReg x y) :=
  formXYN_masked_xy 0x8 x y 0x4
theorem sub (x : Nibble) (y : Nibble) : Statement (.sub x y) :=
  formXYN_masked_xy 0x8 x y 0x5
theorem shr (x : Nibble) (y : Nibble) : Statement (.shr x y) :=
  formXYN_masked_xy 0x8 x y 0x6
theorem subn (x : Nibble) (y : Nibble) : Statement (.subn x y) :=
  formXYN_masked_xy 0x8 x y 0x7
theorem shl (x : Nibble) (y : Nibble) : Statement (.shl x y) :=
  formXYN_masked_xy 0x8 x y 0xE
theorem sneReg (x : Nibble) (y : Nibble) (u : Nibble) : Statement (.sneReg x y u) :=
  formXYN_masked 0x9 x y u
theorem ldI (nnn : Imm12) : Statement (.ldI nnn) :=
  formNNN_masked 0xA nnn
theorem jpV0 (nnn : Imm12) : Statement (.jpV0 nnn) :=
  formNNN_masked 0xB nnn
theorem rnd (x : Nibble) (nn : Byte) : Statement (.rnd x nn) :=
  formXNN_masked 0xC x nn
theorem drw (x : Nibble) (y : Nibble) (n : Nibble) : Statement (.drw x y n) :=
  formXYN_masked 0xD x y n
theorem skp (x : Nibble) : Statement (.skp x) :=
  formXNN_masked_x 0xE x 0x9E
theorem sknp (x : Nibble) : Statement (.sknp x) :=
  formXNN_masked_x 0xE x 0xA1
theorem ldVxDt (x : Nibble) : Statement (.ldVxDt x) :=
  formXNN_masked_x 0xF x 0x07
theorem ldVxK (x : Nibble) : Statement (.ldVxK x) :=
  formXNN_masked_x 0xF x 0x0A
theorem ldDtVx (x : Nibble) : Statement (.ldDtVx x) :=
  formXNN_masked_x 0xF x 0x15
theorem ldStVx (x : Nibble) : Statement (.ldStVx x) :=
  formXNN_masked_x 0xF x 0x18
theorem addI (x : Nibble) : Statement (.addI x) :=
  formXNN_masked_x 0xF x 0x1E
theorem ldF (x : Nibble) : Statement (.ldF x) :=
  formXNN_masked_x 0xF x 0x29
theorem ldB (x : Nibble) : Statement (.ldB x) :=
  formXNN_masked_x 0xF x 0x33
theorem stRegs (x : Nibble) : Statement (.stRegs x) :=
  formXNN_masked_x 0xF x 0x55
theorem ldRegs (x : Nibble) : Statement (.ldRegs x) :=
  formXNN_masked_x 0xF x 0x65

end Laws.MaskMatch

end Sys2Proof
end

