-- ==== Sys2Proof/Tests/Slice0.lean ====
section
/-! SUPPORT. The model's own tests. Expected results are hand-derived by the spec: words from the encodings of
30_encoding.md R103, one-step vectors from 95_test_vectors.md (the section is named at each group). The witnesses at
the end show that the hypotheses of the obligations can be met, each clause at a boundary of its range. -/

namespace Sys2Proof.Tests

open Sys2Proof.Machine

/-! Helpers: small states after reset, and the state after one step. -/

/-- Some general registers set. -/
def withV (l : List (Nibble × Byte)) (s : State := State.reset) : State :=
  l.foldl (fun s p => s.setV p.1 p.2) s

/-- `I` set, and bytes listed from address 0x300. -/
def withI (i : Word) (bytes : List Byte) (s : State) : State :=
  { s with I := i, mem := Memory.writeSpan s.config.font s.mem 0x300 bytes }

/-- A quirk setting. -/
def withQuirks (shift index : Bool) (s : State) : State :=
  { s with config := { s.config with quirkShift := shift, quirkIndex := index } }

/-- After `LoadROM`: Ticks may come. -/
def loaded (s : State := State.reset) : State :=
  { s with loadOpen := false }

/-- `KEY_SELECT` given by a table. -/
def withKeySelect (table : KeyTable) (s : State) : State :=
  { s with config := { s.config with keySelect := table } }

/-- Display cells toggled on. -/
def withCells (l : List (Nat × Nat)) (s : State) : State :=
  { s with disp := l.foldl (fun d p => toggleCell d p.1 p.2) s.disp }

/-- The next state of an outcome; `s` itself if there is none. -/
def resultOf (s : State) : Host.Outcome State Fault Refusal → State
  | .next t => t
  | .fault _ => s
  | .refused _ => s

/-- Some events scheduled. -/
def withAgenda (l : List Event) (s : State := State.reset) : State :=
  { s with env := { s.env with agenda := l } }

/-- The state after one Tick of an opcode placed at `pc`. -/
def tickOf (w : Word) (s : State) : State :=
  resultOf s (step (s.placeOpcode w))

/-- The state after one event. -/
def eventOf (e : Event) (s : State) : State :=
  resultOf s (step (withAgenda [e] s))

/-- The fault a state is in, as (code, pc, opcode). -/
def faultOf (s : State) : Option (Nat × Word × Option Word) :=
  match s.run with
  | .faulted r => some (faultCode r.kind, r.pc, r.opcode)
  | .running => none

/-- The lit columns of a row. -/
def litInRow (s : State) (r : Nat) : List Nat :=
  (List.range 64).filter fun c => s.cell c r

/-! WellFormed: each check refuses an ill-formed term, and lets the canonical spelling pass. -/

theorem test_wellFormed_refuses_cls : (Instr.cls 0x1).wellFormed = false := by decide
theorem test_wellFormed_refuses_ret : (Instr.ret 0xF).wellFormed = false := by decide
theorem test_wellFormed_refuses_seReg : (Instr.seReg 0x1 0x2 0x1).wellFormed = false := by decide
theorem test_wellFormed_refuses_sneReg : (Instr.sneReg 0x1 0x2 0xF).wellFormed = false := by decide
theorem test_wellFormed_accepts_canonical :
    (Instr.cls 0x0).wellFormed ∧ (Instr.ret 0x0).wellFormed ∧ (Instr.seReg 0x1 0x2 0x0).wellFormed ∧
    (Instr.sneReg 0x1 0x2 0x0).wellFormed ∧ (Instr.drw 0xF 0xF 0xF).wellFormed := by decide

/-! Decoding: every constructor from a word written out from R103's encoding column. -/

theorem test_decode_flow : decode 0x00E0 = .ok (.cls 0) ∧ decode 0x00EE = .ok (.ret 0) ∧
    decode 0x1ABC = .ok (.jp 0xABC) ∧ decode 0x2FED = .ok (.call 0xFED) := by decide
theorem test_decode_skips : decode 0x3A5C = .ok (.seImm 0xA 0x5C) ∧ decode 0x4B01 = .ok (.sneImm 0xB 0x01) ∧
    decode 0x5120 = .ok (.seReg 1 2 0) ∧ decode 0x9E30 = .ok (.sneReg 0xE 3 0) ∧
    decode 0xE59E = .ok (.skp 5) ∧ decode 0xE6A1 = .ok (.sknp 6) := by decide
theorem test_decode_immediates : decode 0x6A12 = .ok (.ldImm 0xA 0x12) ∧ decode 0x7FFE = .ok (.addImm 0xF 0xFE) := by
  decide
theorem test_decode_alu : decode 0x8120 = .ok (.ldReg 1 2) ∧ decode 0x8341 = .ok (.orReg 3 4) ∧
    decode 0x8562 = .ok (.andReg 5 6) ∧ decode 0x8783 = .ok (.xorReg 7 8) ∧ decode 0x89A4 = .ok (.addReg 9 0xA) ∧
    decode 0x8BC5 = .ok (.sub 0xB 0xC) ∧ decode 0x8DE6 = .ok (.shr 0xD 0xE) ∧
    decode 0x8F07 = .ok (.subn 0xF 0) ∧ decode 0x812E = .ok (.shl 1 2) := by decide
theorem test_decode_index_jump_random : decode 0xA2F0 = .ok (.ldI 0x2F0) ∧ decode 0xB7C1 = .ok (.jpV0 0x7C1) ∧
    decode 0xC30F = .ok (.rnd 3 0x0F) := by decide
theorem test_decode_draw : decode 0xD12F = .ok (.drw 1 2 0xF) := by decide
theorem test_decode_timers : decode 0xF407 = .ok (.ldVxDt 4) ∧ decode 0xF20A = .ok (.ldVxK 2) ∧
    decode 0xF015 = .ok (.ldDtVx 0) ∧ decode 0xF618 = .ok (.ldStVx 6) := by decide
theorem test_decode_index_memory : decode 0xF11E = .ok (.addI 1) ∧ decode 0xF029 = .ok (.ldF 0) ∧
    decode 0xF933 = .ok (.ldB 9) ∧ decode 0xF255 = .ok (.stRegs 2) ∧ decode 0xFF65 = .ok (.ldRegs 0xF) := by decide

/-- The fields of 0xA2F0 (95_test_vectors.md part 1). -/
theorem test_fields_of_A2F0 : operandRecord 0xA2F0 =
    { opcode := 0xA2F0, inst := 0xA, x := 2, y := 0xF, n := 0, nn := 0xF0, nnn := 0x2F0 } := by decide

/-- Non-canonical spellings (2.1). -/
theorem test_decode_ignored_bits : decode 0x01E0 = .ok (.cls 1) ∧ decode 0x0FEE = .ok (.ret 0xF) ∧
    decode 0x5121 = .ok (.seReg 1 2 1) ∧ decode 0x912F = .ok (.sneReg 1 2 0xF) := by decide

/-- Unknown opcodes (2.1). -/
theorem test_decode_unknown :
    decode 0x0000 = .error (.unknown0 0x0000) ∧ decode 0x00E1 = .error (.unknown0 0x00E1) ∧
    decode 0x0123 = .error (.unknown0 0x0123) ∧ decode 0x00FB = .error (.unknown0 0x00FB) ∧
    decode 0x8128 = .error (.unknown8 0x8128) ∧ decode 0x812F = .error (.unknown8 0x812F) ∧
    decode 0xE19F = .error (.unknownE 0xE19F) ∧ decode 0xF100 = .error (.unknownF 0xF100) ∧
    decode 0xF01F = .error (.unknownF 0xF01F) ∧ decode 0xF175 = .error (.unknownF 0xF175) := by decide

theorem test_decodeBytes_keeps_rest : decodeBytes [0xA2, 0xF0, 0x12] = .ok (.ldI 0x2F0, [0x12]) := by decide
theorem test_decodeBytes_truncated : decodeBytes [0xA2] = .error .truncated := by decide

/-- A table word's bits are the opcode's bits; a word longer than `nbits` is cut. -/
theorem test_decodeTableWord : decodeTableWord 16 0xD12F = some (.drw 1 2 0xF) ∧
    decodeTableWord 16 0x1F065 = some (.ldRegs 0) ∧ decodeTableWord 16 0x8128 = none := by decide

/-- The very next step fetches and runs the placed word, also where `pc` could not be fetched from. -/
theorem test_withFetchWord_runs : ∃ t, step (State.reset.withFetchWord 16 0x6A2B) = .next t ∧
    t.getV 0xA = 0x2B ∧ t.pc = 0x202 := ⟨_, rfl, by decide, by decide⟩
theorem test_withFetchWord_high_pc :
    ∃ t, step ({ State.reset with pc := 0x10FE }.withFetchWord 16 0x1300) = .next t ∧ t.pc = 0x300 :=
  ⟨_, rfl, by decide⟩

/-! One step: `00E0 00EE 1NNN 2NNN` (2.2). -/

theorem test_cls : let t := tickOf 0x00E0 (withCells [(0, 0), (63, 31)] State.reset)
    litInRow t 0 = [] ∧ litInRow t 31 = [] ∧ t.drawDirty = true := by decide
theorem test_cls_noncanonical : litInRow (tickOf 0x01E0 (withCells [(3, 0)] State.reset)) 0 = [] := by decide
theorem test_ret_odd : let t := tickOf 0x00EE { State.reset with stack := State.reset.stack.set 0 0xABD, sp := 1 }
    t.pc = 0xABD ∧ t.sp = 0 := by decide
theorem test_ret_underflow : faultOf (tickOf 0x0FEE State.reset) = some (3, 0x200, some 0x0FEE) := by decide
theorem test_jp : (tickOf 0x1FFF State.reset).pc = 0xFFF := by decide
theorem test_call : let t := tickOf 0x2300 { State.reset with sp := 47 }
    t.stack[47] = 0x202 ∧ t.sp = 48 ∧ t.pc = 0x300 := by decide
theorem test_call_overflow : let t := tickOf 0x2300 { State.reset with sp := 48 }
    faultOf t = some (2, 0x200, some 0x2300) ∧ t.sp = 48 ∧ t.pc = 0x200 := by decide

/-! Skips (2.3, 2.8). -/

theorem test_seImm : (tickOf 0x3100 State.reset).pc = 0x204 ∧ (tickOf 0x3100 (withV [(1, 1)])).pc = 0x202 := by
  decide
theorem test_sneImm : (tickOf 0x4100 State.reset).pc = 0x202 ∧ (tickOf 0x4100 (withV [(1, 1)])).pc = 0x204 := by
  decide
theorem test_seReg : (tickOf 0x5120 (withV [(1, 7), (2, 7)])).pc = 0x204 ∧
    (tickOf 0x5122 (withV [(1, 7), (2, 8)])).pc = 0x202 := by decide
theorem test_sneReg : (tickOf 0x9120 (withV [(1, 7), (2, 8)])).pc = 0x204 ∧
    (tickOf 0x912F (withV [(1, 7), (2, 7)])).pc = 0x202 := by decide
theorem test_skp : (tickOf 0xE59E (withV [(5, 0xA)] { State.reset with keys := 0x0400 })).pc = 0x204 ∧
    (tickOf 0xE59E (withV [(5, 0xA)])).pc = 0x202 := by decide
theorem test_skp_keyIndex : faultOf (tickOf 0xE39E (withV [(3, 0x10)])) = some (6, 0x200, some 0xE39E) := by
  decide
theorem test_sknp : (tickOf 0xE5A1 (withV [(5, 0xA)] { State.reset with keys := 0x0400 })).pc = 0x202 ∧
    (tickOf 0xE5A1 (withV [(5, 0xA)])).pc = 0x204 := by decide
theorem test_sknp_keyIndex : faultOf (tickOf 0xE3A1 (withV [(3, 0xFF)])) = some (6, 0x200, some 0xE3A1) := by
  decide

/-! Immediates (2.4). -/

theorem test_ldImm : (tickOf 0x6F07 State.reset).getV 0xF = 0x07 := by decide
theorem test_addImm : let t := tickOf 0x7101 (withV [(1, 0xFF)])
    t.getV 1 = 0 ∧ t.getV 0xF = 0 := by decide
theorem test_addImm_VF : (tickOf 0x7F03 (withV [(0xF, 0xFE)])).getV 0xF = 0x01 := by decide

/-! ALU (2.5). -/

theorem test_ldReg : (tickOf 0x8F20 (withV [(2, 0x77), (0xF, 1)])).getV 0xF = 0x77 := by decide
theorem test_orReg : let t := tickOf 0x8121 (withV [(1, 0xF0), (2, 0x0F), (0xF, 5)])
    t.getV 1 = 0xFF ∧ t.getV 0xF = 5 := by decide
theorem test_andReg : let t := tickOf 0x8122 (withV [(1, 0xF0), (2, 0x3C), (0xF, 5)])
    t.getV 1 = 0x30 ∧ t.getV 0xF = 5 := by decide
theorem test_xorReg : let t := tickOf 0x8123 (withV [(1, 0xF0), (2, 0x3C), (0xF, 5)])
    t.getV 1 = 0xCC ∧ t.getV 0xF = 5 := by decide
theorem test_addReg : let t := tickOf 0x8124 (withV [(1, 0x80), (2, 0x80)])
    t.getV 1 = 0 ∧ t.getV 0xF = 1 := by decide
theorem test_addReg_VF : (tickOf 0x8F14 (withV [(0xF, 0xFF), (1, 1)])).getV 0xF = 0x02 ∧
    (tickOf 0x81F4 (withV [(1, 0xF0), (0xF, 0x20)])).getV 1 = 0xF1 ∧
    (tickOf 0x8FF4 (withV [(0xF, 0x80)])).getV 0xF = 0x02 := by decide
theorem test_sub : let t := tickOf 0x8125 (withV [(1, 3), (2, 5)])
    t.getV 1 = 0xFE ∧ t.getV 0xF = 0 := by decide
theorem test_sub_VF : (tickOf 0x8F15 (withV [(0xF, 2), (1, 3)])).getV 0xF = 0xFD ∧
    (tickOf 0x81F5 (withV [(1, 0x30), (0xF, 0x20)])).getV 1 = 0x2F ∧
    (tickOf 0x8FF5 (withV [(0xF, 0x44)])).getV 0xF = 0 := by decide
theorem test_subn : let t := tickOf 0x8127 (withV [(1, 3), (2, 5)])
    t.getV 1 = 2 ∧ t.getV 0xF = 1 := by decide
theorem test_subn_VF : (tickOf 0x8F17 (withV [(0xF, 9), (1, 2)])).getV 0xF = 0x02 ∧
    (tickOf 0x81F7 (withV [(1, 5), (0xF, 9)])).getV 1 = 0xFC ∧
    (tickOf 0x8FF7 (withV [(0xF, 0x44)])).getV 0xF = 0 := by decide
theorem test_shr : let t := tickOf 0x8126 (withV [(1, 0xAA), (2, 5)])
    t.getV 1 = 2 ∧ t.getV 2 = 5 ∧ t.getV 0xF = 1 := by decide
theorem test_shr_quirk : let t := tickOf 0x8126 (withQuirks true false (withV [(1, 0xAA), (2, 5)]))
    t.getV 1 = 0x55 ∧ t.getV 0xF = 0 := by decide
theorem test_shl : let t := tickOf 0x812E (withV [(2, 0x81)])
    t.getV 1 = 2 ∧ t.getV 0xF = 1 := by decide
theorem test_shl_quirk_VF : (tickOf 0x8F2E (withV [(2, 0xC0)])).getV 0xF = 1 ∧
    (tickOf 0x812E (withQuirks true false (withV [(2, 0x81)]))).getV 1 = 0 := by decide

/-! Index, jump with offset, random (2.6). -/

theorem test_ldI : (tickOf 0xAFFF State.reset).I = 0x0FFF := by decide
theorem test_jpV0 : (tickOf 0xBFFF (withV [(0, 0xFF)])).pc = 0x10FE := by decide
theorem test_rnd : (eventOf (.tick 0xB7) (State.reset.placeOpcode 0xC30F)).getV 3 = 0x07 := by decide

/-! Drawing (2.7). -/

theorem test_drw_clips : let t := tickOf 0xD123 (withI 0x300 [0xC0, 0xC0, 0xC0] (withV [(1, 62), (2, 30)]))
    litInRow t 30 = [62, 63] ∧ litInRow t 31 = [62, 63] ∧ litInRow t 0 = [] ∧ t.getV 0xF = 0 ∧
    t.drawDirty = true := by decide
theorem test_drw_start_from_VF : litInRow (tickOf 0xDFF1 (withI 0x300 [0xA0] (withV [(0xF, 0x25)]))) 5 = [37, 39] := by
  decide

/-! Timers and key wait (2.9). -/

theorem test_ldVxDt : (tickOf 0xF407 { State.reset with DT := 0x2A }).getV 4 = 0x2A := by decide
theorem test_ldVxK_waits : let t := tickOf 0xF20A State.reset
    t.pc = 0x200 ∧ t.run = .running := by decide
theorem test_ldVxK_lowest : let t := tickOf 0xF20A { State.reset with keys := 0x0280 }
    t.getV 2 = 7 ∧ t.pc = 0x202 := by decide
theorem test_ldVxK_keySelect : let s := withKeySelect [(0x0280, 9), (0x0001, 5)]
    (tickOf 0xF20A (s { State.reset with keys := 0x0280 })).getV 2 = 9 ∧
    (tickOf 0xF20A (s { State.reset with keys := 0x0001 })).getV 2 = 0 ∧
    (tickOf 0xF20A (s { State.reset with keys := 0x8000 })).getV 2 = 0xF := by decide
theorem test_ldDtVx : (tickOf 0xF015 (withV [(0, 0)] { State.reset with DT := 9 })).DT = 0 := by decide
theorem test_ldStVx : (tickOf 0xF618 (withV [(6, 0x1E)])).ST = 0x1E := by decide

/-! Index and memory (2.10). -/

theorem test_addI : (tickOf 0xF11E (withI 0xFFFF [] (withV [(1, 1)]))).I = 0 := by decide
theorem test_ldF : (tickOf 0xF029 (withV [(0, 0x1A)])).I = 0x0032 := by decide
theorem test_ldB : let t := tickOf 0xF033 (withI 0xFFD [] (withV [(0, 255)]))
    t.readByte 0xFFD = 2 ∧ t.readByte 0xFFE = 5 ∧ t.readByte 0xFFF = 5 := by decide
theorem test_ldB_faults : faultOf (tickOf 0xF033 (withI 0xFFE [] State.reset)) = some (4, 0x200, some 0xF033) ∧
    faultOf (tickOf 0xF033 (withI 0x1FF [] State.reset)) = some (5, 0x200, some 0xF033) := by decide
theorem test_stRegs :
    let t := tickOf 0xF255 (withQuirks false true (withI 0x300 [] (withV [(0, 0x11), (1, 0x22), (2, 0x33)])))
    t.readByte 0x300 = 0x11 ∧ t.readByte 0x301 = 0x22 ∧ t.readByte 0x302 = 0x33 ∧ t.I = 0x303 := by decide
theorem test_stRegs_faults : faultOf (tickOf 0xFF55 (withI 0xFF1 [] State.reset)) = some (4, 0x200, some 0xFF55) ∧
    faultOf (tickOf 0xF055 (withI 0x1F0 [] State.reset)) = some (5, 0x200, some 0xF055) := by decide
theorem test_ldRegs_font : let t := tickOf 0xF465 State.reset
    t.getV 0 = 0xF0 ∧ t.getV 1 = 0x90 ∧ t.getV 4 = 0xF0 ∧ t.getV 5 = 0 ∧ t.I = 0 := by decide
theorem test_ldRegs_fault : faultOf (tickOf 0xFF65 (withI 0xFF1 [] State.reset)) = some (4, 0x200, some 0xFF65) := by
  decide

/-! Fetch, faults, events (2.11). -/

theorem test_fetch_last_word : (tickOf 0x1200 { State.reset with pc := 0xFFE }).pc = 0x200 := by decide
theorem test_fetch_odd_pc : let t := tickOf 0x6A2B { State.reset with pc := 0x201 }
    t.getV 0xA = 0x2B ∧ t.pc = 0x203 := by decide
theorem test_fetch_beyond : faultOf (eventOf (.tick 0) (loaded { State.reset with pc := 0xFFF })) = some (4, 0xFFF, none) := by
  decide
theorem test_fetch_font : faultOf (eventOf (.tick 0) (loaded { State.reset with pc := 0 })) = some (1, 0x000, some 0xF090) := by
  decide
theorem test_timerStep : let t := eventOf .timerStep { State.reset with DT := 1, ST := 0 }
    t.DT = 0 ∧ t.ST = 0 := by decide
theorem test_setKeys : let t := eventOf (.setKeys 0x0201) State.reset
    t.keyDown 0 = true ∧ t.keyDown 9 = true ∧ t.keyDown 1 = false := by decide
theorem test_renderAck : let t := eventOf .renderAck (withCells [(5, 5)] { State.reset with drawDirty := true })
    t.drawDirty = false ∧ litInRow t 5 = [5] := by decide
theorem test_loadRom : (eventOf (.loadRom [0x12, 0x34]) State.reset).fetch = .ok 0x1234 := by decide
theorem test_loadRom_empty :
    faultOf (eventOf (.tick 0) (eventOf (.loadRom []) State.reset)) = some (1, 0x200, some 0x0000) := by decide
theorem test_tick_before_loadRom :
    step State.reset = .refused .notLoaded ∧ step (withAgenda [.tick 0]) = .refused .notLoaded := ⟨rfl, rfl⟩
theorem test_loadRom_refused (rom : List Byte) (h : rom.length = 3585) :
    step (withAgenda [.loadRom rom]) = .refused (.romTooLarge 3585) := by
  simp [withAgenda, step, State.nextEvent, State.perform, State.loadRom, State.reset, State.boot, h]
theorem test_loadRom_once :
    step (withAgenda [.loadRom []] { State.reset with loadOpen := false }) = .refused .loadTooLate := rfl
theorem test_skipFault_refused : step (withAgenda [.skipFault]) = .refused .skipNotEnabled := rfl
theorem test_reset_keeps_config : let t := eventOf .reset (withQuirks true true (tickOf 0x0000 State.reset))
    t.config.quirkShift = true ∧ t.run = .running := by decide

/-! Witnesses: the hypotheses of each obligation are met together, clause by clause at boundaries of their ranges. -/

/-- `Selects`: under every table mask some word other than the bare pattern matches. -/
theorem witness_Selects : (0x0FE0 : Word) &&& 0xF0FF = 0x00E0 ∧ (0x1FFF : Word) &&& 0xF000 = 0x1000 ∧
    (0x8FF7 : Word) &&& 0xF00F = 0x8007 ∧ (0xFF65 : Word) &&& 0xF0FF = 0xF065 := by decide

theorem witness_EncodeGivesBackTheOpcode : decode 0x0FEE = .ok (.ret 0xF) := by decide

theorem witness_RejectedOpcodesAreTheUnknownOnes : decode 0x0000 = .error (.unknown0 0x0000) ∧
    decode 0xFFFF = .error (.unknownF 0xFFFF) := by decide

/-- `sp` = 1, 48 and 0: the first and last `k`, and underflow. -/
theorem witness_RetPopsTheReturnAddress : ∃ s t u : State, s.sp.val = (0 : Fin 48).val + 1 ∧
    t.sp.val = (47 : Fin 48).val + 1 ∧ u.sp.val = 0 :=
  ⟨{ State.reset with sp := 1 }, { State.reset with sp := 48 }, State.reset, by decide⟩

/-- `sp` = 0, 47 and 48. -/
theorem witness_CallPushesAndJumps : ∃ s t u : State, s.sp.val = (0 : Fin 48).val ∧ t.sp.val = (47 : Fin 48).val ∧
    u.sp.val = 48 :=
  ⟨State.reset, { State.reset with sp := 47 }, { State.reset with sp := 48 }, by decide⟩

theorem witness_ReturnUndoesCall : ∃ s t v : State, s.sp.val < 48 ∧ exec (.call 0x300) s = .next t ∧
    v.stack = t.stack ∧ v.sp = t.sp ∧ v.pc ≠ t.pc :=
  ⟨{ State.reset with sp := 47 }, _, { State.reset with stack := State.reset.stack.set 47 0x200, sp := 48 },
    by decide, rfl, rfl, rfl, by decide⟩

/-- Key codes 15 and 16, with key 15 down and up. -/
theorem witness_KeySkips : ((withV [(3, 15)]).getV 3).toNat ≤ 15 ∧ 15 < ((withV [(3, 16)]).getV 3).toNat ∧
    ({ State.reset with keys := 0x8000 }).keys.getLsbD 15 = true := by decide

/-- The four cases of `X`, `Y` being F, and both values of the flags. -/
theorem witness_AluFlagCases : ((1 : Nibble) ≠ 0xF ∧ (2 : Nibble) ≠ 0xF) ∧
    ((withV [(1, 255), (2, 1)]).getV 1).toNat + ((withV [(1, 255), (2, 1)]).getV 2).toNat > 255 ∧
    ¬ ((withV [(1, 255), (2, 0)]).getV 1).toNat + ((withV [(1, 255), (2, 0)]).getV 2).toNat > 255 ∧
    ((withV [(1, 7), (2, 7)]).getV 2).toNat ≤ ((withV [(1, 7), (2, 7)]).getV 1).toNat ∧
    ¬ ((withV [(1, 7), (2, 8)]).getV 2).toNat ≤ ((withV [(1, 7), (2, 8)]).getV 1).toNat := by decide

/-- No rows with `I` beyond memory; the last byte of memory; one byte beyond it. -/
theorem witness_DrawIsClippedExclusiveOr : let s := withI 0xFFF [] State.reset
    ((0 : Nibble).toNat = 0 ∨ s.I.toNat + (0 : Nibble).toNat - 1 ≤ 0xFFF) ∧
    ((1 : Nibble).toNat = 0 ∨ s.I.toNat + (1 : Nibble).toNat - 1 ≤ 0xFFF) ∧
    (1 ≤ (2 : Nibble).toNat ∧ 0xFFF < s.I.toNat + (2 : Nibble).toNat - 1) := by decide

/-- A sprite covers the cell (63, 31) when drawn there, and no cell beyond the grid. -/
theorem witness_SpriteCovers : (withI 0x300 [0x80] (withV [(1, 63), (2, 31)])).SpriteCovers 1 2 1 63 31 := by
  unfold State.SpriteCovers; decide

theorem witness_DrawingTwiceErases : ∃ s t u v : State, s.run = .running ∧ exec (.drw 1 2 1) s = .next t ∧
    t.run = .running ∧ u.disp = t.disp ∧ u.I = s.I ∧ u.getV 1 = s.getV 1 ∧ u.getV 2 = s.getV 2 ∧
    (∀ a, u.readByte a = s.readByte a) ∧ exec (.drw 1 2 1) u = .next v ∧ v.getV 0xF = 1 :=
  let s := withI 0x300 [0x80] (withV [(1, 63), (2, 31)])
  let t := resultOf s (exec (.drw 1 2 1) s)
  ⟨s, t, t, resultOf t (exec (.drw 1 2 1) t), rfl, rfl, rfl, rfl, rfl, rfl, rfl, fun _ => rfl, rfl, by decide⟩

/-- All keys up; all keys down and only key 15 down, under the default parameter and under one that gives key 15. -/
theorem witness_KeyWaitStoresTheSelectedKey : (∀ k, k < 16 → State.reset.keys.getLsbD k = false) ∧
    State.reset.config.keySelect = [] ∧ ({ State.reset with keys := 0xFFFF }).keys.getLsbD 0 = true ∧
    ({ State.reset with keys := 0x8000 }).keys.getLsbD 15 = true ∧
    (let s := withKeySelect [(0xFFFF, 0xF)] { State.reset with keys := 0xFFFF };
      s.config.keySelect.lookup s.keys = some 0xF ∧ s.keys.getLsbD (0xF : Nibble).toNat = true ∧ s.keys ≠ 0) := by
  decide

/-- A `KEY_SELECT` in the sense of R6 exists: the lowest key of each vector. -/
theorem witness_KeySelect : ∃ f : BitVec 16 → Nibble, ∀ v : BitVec 16, v ≠ 0 → v.getLsbD (f v).toNat = true := by
  refine ⟨fun v => ({ State.reset with keys := v }.lowestKey).getD 0, fun v hv => ?_⟩
  cases h : ({ State.reset with keys := v }).lowestKey with
  | some k => simpa [h, State.keyDown] using (lowestKey_some h).1
  | none => exact absurd (BitVec.eq_of_getLsbD_eq fun k hk => (lowestKey_none.mp h k hk).trans (by simp)) hv

/-- The lowest and the highest span that fits, one beyond memory, one below 0x200. -/
theorem witness_BcdIsStored : (0x200 ≤ (withI 0x200 [] State.reset).indexAddress ∧
      (withI 0x200 [] State.reset).indexAddress + 2 ≤ 0xFFF) ∧
    (0x200 ≤ (withI 0xFFD [] State.reset).indexAddress ∧ (withI 0xFFD [] State.reset).indexAddress + 2 ≤ 0xFFF) ∧
    0xFFF < (withI 0xFFE [] State.reset).indexAddress + 2 ∧ (withI 0x1FF [] State.reset).indexAddress < 0x200 := by
  decide

/-- The same for `X` = 0 and `X` = F. -/
theorem witness_RegistersAreStored : (0x200 ≤ (withI 0xFFF [] State.reset).indexAddress ∧
      (withI 0xFFF [] State.reset).indexAddress + (0 : Nibble).toNat ≤ 0xFFF) ∧
    (0x200 ≤ (withI 0xFF0 [] State.reset).indexAddress ∧
      (withI 0xFF0 [] State.reset).indexAddress + (0xF : Nibble).toNat ≤ 0xFFF) ∧
    0xFFF < (withI 0xFF1 [] State.reset).indexAddress + (0xF : Nibble).toNat ∧
    (withI 0x1FF [] State.reset).indexAddress < 0x200 := by decide

theorem witness_RegistersAreLoaded : (withI 0 [] State.reset).indexAddress + (0xF : Nibble).toNat ≤ 0xFFF ∧
    (withI 0xFF0 [] State.reset).indexAddress + (0xF : Nibble).toNat ≤ 0xFFF ∧
    0xFFF < (withI 0x1000 [] State.reset).indexAddress + (0 : Nibble).toNat := by decide

theorem witness_canonical_memory : (withI 0xFF0 [0x11, 0x00, 0x33] State.reset).MemoryCanonical := by
  unfold State.MemoryCanonical; decide

theorem witness_StoreThenLoadRestoresRegisters : ∃ s t u : State, s.MemoryCanonical ∧ 0x200 ≤ s.indexAddress ∧
    s.indexAddress + (0xF : Nibble).toNat ≤ 0xFFF ∧ exec (.stRegs 0xF) s = .next t ∧ u.mem = t.mem ∧
    u.config = t.config ∧ u.I = s.I ∧ u.getV 0 ≠ s.getV 0 :=
  let s := withI 0xFF0 [] (withV [(0, 5)])
  ⟨s, _, { State.reset with mem := Memory.writeSpan s.config.font s.mem 0xFF0 (s.registersTo 0xF), I := 0xFF0 },
    by unfold State.MemoryCanonical; decide, by decide, by decide, execStRegs_ok (by decide) (by decide),
    (State.advanceIndex_mem _ 0xF).symm, (State.advanceIndex_config _ 0xF).symm, rfl, by decide⟩

theorem witness_StoredBytesAreFetchedNext : ∃ s t : State, s.MemoryCanonical ∧ s.run = .running ∧
    exec (.stRegs 1) s = .next t ∧ t.run = .running ∧ (0 : Nibble).toNat + 1 ≤ (1 : Nibble).toNat ∧
    s.pc.toNat = s.indexAddress + (0 : Nibble).toNat :=
  ⟨withI 0x208 [] (withV [(0, 0x62), (1, 0x33)] { State.reset with pc := 0x208 }), _,
    by unfold State.MemoryCanonical; decide, rfl, rfl, rfl, by decide, by decide⟩

/-- An instruction that ends `Faulted`. -/
theorem witness_InstructionFaultsArePrecise : ∃ s t : State, s.run = .running ∧ exec (.ret 0) s = .next t ∧
    t.run ≠ .running := ⟨State.reset, _, rfl, rfl, by decide⟩

/-- Each kind of fault an instruction raises is raised by one. -/
theorem witness_FaultConditions :
    faultOf (tickOf 0x2300 { State.reset with sp := 48 }) = some (2, 0x200, some 0x2300) ∧
    faultOf (tickOf 0xD122 { State.reset with I := 0xFFF }) = some (4, 0x200, some 0xD122) ∧
    faultOf (tickOf 0xD121 { State.reset with I := 0xFFF }) = none ∧
    faultOf (tickOf 0xFF65 { State.reset with I := 0xFF0 }) = none := by decide

theorem witness_OnlySixClassesWriteTheFlag : ∃ t, exec (.addReg 1 2) (withV [(1, 255), (2, 1)]) = .next t ∧
    t.getV 0xF ≠ (withV [(1, 255), (2, 1)]).getV 0xF := ⟨_, rfl, by decide⟩

theorem witness_OnlyTheirWritersChangeSpecialState :
    (∃ t, exec (.call 0x300) State.reset = .next t ∧ t.sp ≠ State.reset.sp ∧ t.stack ≠ State.reset.stack) ∧
    (∃ t, exec (.ldDtVx 0) (withV [(0, 1)]) = .next t ∧ t.DT ≠ (withV [(0, 1)]).DT) ∧
    (∃ t, exec (.ldStVx 0) (withV [(0, 1)]) = .next t ∧ t.ST ≠ (withV [(0, 1)]).ST) ∧
    (∃ t, exec (.ldI 1) State.reset = .next t ∧ t.I ≠ State.reset.I) ∧
    ∃ t, exec (.stRegs 0) (withI 0xFFF [] (withV [(0, 1)])) = .next t ∧
      t.readByte 0xFFF ≠ (withI 0xFFF [] (withV [(0, 1)])).readByte 0xFFF :=
  ⟨⟨_, rfl, by decide, by decide⟩, ⟨_, rfl, by decide⟩, ⟨_, rfl, by decide⟩, ⟨_, rfl, by decide⟩,
    ⟨_, rfl, by decide⟩⟩

/-- A jump, a taken skip, a waiting `FX0A`. -/
theorem witness_OnlyControlFlowWritesPc :
    (∃ t, exec (.jp 0x300) State.reset = .next t ∧ t.pc ≠ State.reset.pc ∧ t.run = .running) ∧
    (∃ t, exec (.seImm 0 0) State.reset = .next t ∧ t.pc ≠ State.reset.pc ∧ t.run = .running) ∧
    ∃ t, exec (.ldVxK 0) State.reset = .next t ∧ t.pc ≠ State.reset.pc ∧ t.run = .running :=
  ⟨⟨_, rfl, by decide, rfl⟩, ⟨_, rfl, by decide, rfl⟩, ⟨_, rfl, by decide, rfl⟩⟩

theorem witness_InstructionsOnlyReadInputs : ∃ t, exec (.cls 0) State.reset = .next t ∧
    t.drawDirty ≠ State.reset.drawDirty := ⟨_, rfl, by decide⟩

theorem witness_OnlyRndReadsTheRandomByte : (∀ x nn, Instr.ldVxDt 1 ≠ .rnd x nn) ∧
    ∃ t, exec (.ldVxDt 1) State.reset = .next t := ⟨fun _ _ => Instr.noConfusion, _, rfl⟩

theorem witness_OutputsAreNeverRead : ∃ t, exec (.ldStVx 0) (withV [(0, 9)]) = .next t ∧ t.ST = 9 := ⟨_, rfl, rfl⟩

/-- A word to run at the highest fetch address, with an empty agenda and with a Tick at its head. -/
def atTop (e : List Event) : State :=
  withAgenda e (loaded { State.reset with pc := 0xFFE, mem := [(0xFFE, 0x6A), (0xFFF, 0x2B)] })

theorem witness_StepRunsTheDecodedInstruction : (atTop []).run = .running ∧ (atTop []).loadOpen = false ∧
    (atTop []).pc.toNat ≤ 0xFFE ∧
    decode ((atTop []).readByte (atTop []).pc.toNat ++ (atTop []).readByte ((atTop []).pc.toNat + 1)) =
      .ok (.ldImm 0xA 0x2B) ∧ (atTop []).env.agenda = [] ∧ (atTop [.tick 7]).env.agenda = .tick 7 :: [] := by decide

theorem witness_FetchAndDispatchFaults : 0xFFE < (0xFFF : Word).toNat ∧
    decode (State.reset.readByte 0x200 ++ State.reset.readByte 0x201) = .error (.unknown0 0x0000) ∧
    (atTop [.tick 7]).run = .running ∧ (atTop [.tick 7]).loadOpen = false ∧
    (atTop [.tick 7]).env.agenda = .tick 7 :: [] := by decide

/-- From reset the whole order of R274, a second `Reset` included; `Tick` first is out of order, as are no `LoadROM` and
two. The second clause: awaiting `LoadROM`, nothing scheduled and a Tick scheduled. -/
theorem witness_RequiredOrderIsNeverRefused :
    (withAgenda [.loadRom [0x12, 0x00], .tick 0, .timerStep, .setKeys 1, .renderAck, .reset,
      .loadRom []]).FollowsRequiredOrder ∧
    ¬ (withAgenda [.tick 0, .loadRom []]).FollowsRequiredOrder ∧ ¬ State.reset.FollowsRequiredOrder ∧
    ¬ (withAgenda [.loadRom [], .loadRom []]).FollowsRequiredOrder ∧
    State.reset.run = .running ∧ State.reset.loadOpen = true ∧ State.reset.env.agenda = [] ∧
    (withAgenda [.tick 7]).env.agenda = .tick 7 :: [] := by
  unfold State.FollowsRequiredOrder; decide

/-- The first clause's other ends: a faulted machine with a Tick ahead, and an image of 3585 bytes. -/
theorem witness_RequiredOrder_stops : (∃ s : State, ∃ r, s.FollowsRequiredOrder ∧ s.run = .faulted r ∧
      step s = .fault (.halted r)) ∧
    (withAgenda [.loadRom (List.replicate 3585 0)]).FollowsRequiredOrder :=
  ⟨⟨tickOf 0x0000 State.reset, _, rfl, rfl, rfl⟩, rfl⟩

/-- A faulted machine with nothing scheduled; under halt it still takes a timer step. -/
theorem witness_OnlyResetLeavesAFault : (∃ s : State, ∃ r, s.run = .faulted r ∧ s.env.agenda = []) ∧
    ∃ s t : State, ∃ r, s.config.faultPolicy = .halt ∧ s.loadOpen = false ∧ s.run = .faulted r ∧ step s = .next t :=
  ⟨⟨tickOf 0x0000 State.reset, _, rfl, rfl⟩,
    withAgenda [.timerStep] (tickOf 0x0000 State.reset), _, _, rfl, rfl, rfl, rfl⟩

/-- Agendas with each event at the head; an image of no byte, of 3584 and of 3585. -/
theorem witness_events : (atTop [.timerStep, .reset]).env.agenda = .timerStep :: [.reset] ∧
    (atTop [.setKeys 1]).env.agenda = .setKeys 1 :: [] ∧ (atTop [.renderAck]).env.agenda = .renderAck :: [] ∧
    (atTop [.reset]).env.agenda = .reset :: [] ∧ (atTop [.loadRom []]).env.agenda = .loadRom [] :: [] ∧
    State.reset.loadOpen = true ∧ ([] : List Byte).length ≤ 3584 := by decide
theorem witness_LoadRom_lengths : (List.replicate 3584 (0 : Byte)).length ≤ 3584 ∧
    3584 < (List.replicate 3585 (0 : Byte)).length := by
  simp only [List.length_replicate]; decide

theorem witness_TimersReachZeroAndStay :
    (atTop [.timerStep, .timerStep]).env.agenda = List.replicate 2 .timerStep ++ [] := by decide

/-- A step that makes `DT` greater, and one that makes `ST` greater. -/
theorem witness_TimersGrowOnlyByTheirWrites : (tickOf 0xF015 (withV [(0, 255)])).DT = 255 ∧
    (tickOf 0xF018 (withV [(0, 1)])).ST = 1 := by decide

/-- The self-jump `1200` at 0x200, with some events ahead. -/
def selfJump (e : List Event) : State :=
  withAgenda e (loaded { State.reset with mem := [(0x200, 0x12)] })

/-- The first clause at the highest fetch address, the second with a Tick ahead, the third with a timer step ahead. -/
theorem witness_SelfJumpRunsForEver :
    (let s := { State.reset with pc := 0xFFE, mem := [(0xFFE, 0x1F), (0xFFF, 0xFE)] };
      s.run = .running ∧ s.pc = (0xFFE : Imm12).setWidth 16 ∧ s.pc.toNat ≤ 0xFFE ∧
      s.readByte s.pc.toNat ++ s.readByte (s.pc.toNat + 1) = encode (.jp 0xFFE)) ∧
    (let s := selfJump [.tick 7];
      s.EndOfRun ∧ s.loadOpen = false ∧ (∀ e ∈ s.env.agenda, ∃ rnd, e = .tick rnd)) ∧
    (let s := selfJump [.timerStep];
      s.EndOfRun ∧ s.loadOpen = false ∧ (∀ rest, s.env.agenda ≠ .reset :: rest) ∧ ∃ t, step s = .next t) :=
  ⟨by decide, ⟨⟨rfl, 0x200, rfl, rfl⟩, rfl, fun e he => ⟨7, by simpa [selfJump, withAgenda] using he⟩⟩,
    ⟨rfl, 0x200, rfl, rfl⟩, rfl, fun _ h => (by cases h), _, rfl⟩

/-- A jump elsewhere is no end of a run, and a faulted machine is none. -/
theorem test_no_end_of_run : ¬ (State.reset.placeOpcode 0x1202).EndOfRun ∧ ¬ (tickOf 0x0000 State.reset).EndOfRun := by
  refine ⟨fun ⟨_, nnn, h, hf⟩ => ?_, fun ⟨h, _⟩ => absurd h (by decide)⟩
  have e : (State.reset.placeOpcode 0x1202).fetch = .ok 0x1202 := by decide
  have h2 : nnn = (0x200 : Word).setWidth 12 := by
    have := congrArg (BitVec.setWidth 12) (show (0x200 : Word) = jumpTarget nnn from h)
    simpa [jumpTarget] using this.symm
  subst h2
  exact absurd (e.symm.trans hf) (by decide)

/-- A state that meets every invariant and steps: the premises of the `StepKeeps…` statements. -/
theorem witness_StepKeepsInvariants : ∃ s t : State, s.MemoryCanonical ∧ s.LowMemoryFixed ∧ s.FaultTruthful ∧
    s.PcInRange ∧ step s = .next t := by
  refine ⟨loaded, _, ?_, fun a _ => read_nil _ a, fun _ h => ?_, ⟨by decide, fun _ h => ?_⟩, rfl⟩
  · unfold State.MemoryCanonical; decide
  · cases h
  · exact absurd h (Nat.not_lt_zero _)

/-- A faulted state meets the fault-record invariant with content: the record of an unknown opcode. -/
theorem witness_FaultTruthful : ∃ s : State, s.FaultTruthful ∧ s.run ≠ .running := by
  refine ⟨tickOf 0x0000 State.reset, fun r h => ?_, by decide⟩
  have e : r = { kind := .unknownOpcode, pc := 0x200, opcode := some 0 } := by
    have h' : (tickOf 0x0000 State.reset).run =
        .faulted { kind := .unknownOpcode, pc := 0x200, opcode := some 0 } := by decide
    rw [h'] at h
    cases h
    rfl
  subst e
  refine ⟨rfl, by decide, by decide, fun w hw => ?_, fun _ => ⟨0, .unknown0 0, by decide, by decide⟩⟩
  cases hw
  exact ⟨by decide, by decide⟩

/-- A run of two steps from reset: the self-jump is loaded, and a Tick runs it. -/
theorem witness_ReachableStatesMeetTheInvariants : ∃ (c : Config) (e : Environment) (t : State),
    Reachable { State.boot c with env := e } t ∧ t.loadOpen = false ∧ t.env.agenda = [] ∧ t.env.rnd = 7 ∧ t.EndOfRun :=
  ⟨defaultConfig, { agenda := [.loadRom [0x12, 0x00], .tick 7], rnd := 0, draws := 0 }, _,
    .step (.step .refl rfl) rfl, rfl, rfl, rfl, rfl, 0x200, rfl, rfl⟩

end Sys2Proof.Tests
end

/-! The jump `1NNN` (40_screen_return_jump_call.md R122). -/

namespace Sys2Proof.Machine

/-- A jump target is the 12-bit immediate, zero-extended (R122). -/
@[simp] theorem toNat_jumpTarget (nnn : Imm12) : (jumpTarget nnn).toNat = nnn.toNat :=
  BitVec.toNat_setWidth_of_le (by decide)

/-- First-level dispatch for `inst` = 1 (R94). -/
theorem dispatch_jp {f : OperandRecord} (h : f.inst = 0x1) : dispatch f = .ok (.jp f.nnn) := by
  simp [dispatch, h]

/-- `1NNN` answers the state with `pc` at the jump target, whatever the state. -/
theorem exec_jp (nnn : Imm12) (s : State) : exec (.jp nnn) s = .next { s with pc := jumpTarget nnn } := rfl

/-- The mask of R122 fixes the top nibble, the only one the dispatch of a jump looks at. -/
theorem selects_jp : Selects 0xF000 0x1000 (fun f => .jp f.nnn) := by
  intro w hw
  have hinst : (operandRecord w).inst = 0x1 := inst_of_mask hw (by decide)
  exact dispatch_jp hinst

/-- Settles O8: the mask leaves only the dispatch's jump row, and the jump writes `pc` alone. -/
theorem jpJumps : Obligations.JpJumps :=
  ⟨selects_jp, fun nnn s => ⟨_, exec_jp nnn s, toNat_jumpTarget nnn, pc_changesOnly s _⟩⟩

end Sys2Proof.Machine

/-! The skips on a register and an immediate, `3XNN` and `4XNN` (41_skips.md R130, R131). -/

namespace Sys2Proof.Machine

/-- First-level dispatch for `inst` = 3 (R94). -/
theorem dispatch_seImm {f : OperandRecord} (h : f.inst = 0x3) : dispatch f = .ok (.seImm f.x f.nn) := by
  simp [dispatch, h]

/-- First-level dispatch for `inst` = 4 (R94). -/
theorem dispatch_sneImm {f : OperandRecord} (h : f.inst = 0x4) : dispatch f = .ok (.sneImm f.x f.nn) := by
  simp [dispatch, h]

/-- The mask of R130 fixes the top nibble, which alone selects `3XNN`. -/
theorem selects_seImm : Selects 0xF000 0x3000 (fun f => .seImm f.x f.nn) := by
  intro w hw
  have hinst : (operandRecord w).inst = 0x3 := inst_of_mask hw (by decide)
  exact dispatch_seImm hinst

/-- The mask of R131 fixes the top nibble, which alone selects `4XNN`. -/
theorem selects_sneImm : Selects 0xF000 0x4000 (fun f => .sneImm f.x f.nn) := by
  intro w hw
  have hinst : (operandRecord w).inst = 0x4 := inst_of_mask hw (by decide)
  exact dispatch_sneImm hinst

/-- `3XNN` is the conditional skip on equality, whatever the state. -/
theorem exec_seImm (x : Nibble) (nn : Byte) (s : State) :
    exec (.seImm x nn) s = .next (s.skipIf (s.getV x == nn)) := rfl

/-- `4XNN` is the conditional skip on inequality, whatever the state. -/
theorem exec_sneImm (x : Nibble) (nn : Byte) (s : State) :
    exec (.sneImm x nn) s = .next (s.skipIf (s.getV x != nn)) := rfl

/-- An instruction that is a conditional skip completes, and changes only `pc`; `a` is the address it leaves there. -/
theorem completes_of_exec_skipIf {i : Instr} {s : State} {c : Bool} {a : Word} (h : exec i s = .next (s.skipIf c))
    (ha : (if c then s.pc + 2 else s.pc) = a) : ∃ t, exec i s = .next t ∧ t.pc = a ∧ s.ChangesOnly t [] [.pc] :=
  ⟨s.skipIf c, h, (State.skipIf_pc s c).trans ha, skipIf_changesOnly s c⟩

/-- Settles O11: the mask leaves only the skip's dispatch row, and each skip is `skipIf` on its comparison. -/
theorem immediateSkips : Obligations.ImmediateSkips := by
  refine ⟨selects_seImm, selects_sneImm, fun x nn s => ⟨?seImm, ?sneImm⟩⟩
  case seImm => exact completes_of_exec_skipIf (exec_seImm x nn s) (by simp only [beq_iff_eq])
  case sneImm => exact completes_of_exec_skipIf (exec_sneImm x nn s) (by simp only [bne_iff_ne, ite_not])

end Sys2Proof.Machine

/-! Register immediates, `6XNN` and `7XNN` (42_immediate.md R140, R141). -/

namespace Sys2Proof.Machine

/-- First-level dispatch for `inst` = 6 (R94). -/
theorem dispatch_ldImm {f : OperandRecord} (h : f.inst = 0x6) : dispatch f = .ok (.ldImm f.x f.nn) := by
  simp [dispatch, h]

/-- First-level dispatch for `inst` = 7 (R94). -/
theorem dispatch_addImm {f : OperandRecord} (h : f.inst = 0x7) : dispatch f = .ok (.addImm f.x f.nn) := by
  simp [dispatch, h]

/-- The mask of R140 fixes the top nibble, which alone selects `6XNN`. -/
theorem selects_ldImm : Selects 0xF000 0x6000 (fun f => .ldImm f.x f.nn) := by
  intro w hw
  have hinst : (operandRecord w).inst = 0x6 := inst_of_mask hw (by decide)
  exact dispatch_ldImm hinst

/-- The mask of R141 fixes the top nibble, which alone selects `7XNN`. -/
theorem selects_addImm : Selects 0xF000 0x7000 (fun f => .addImm f.x f.nn) := by
  intro w hw
  have hinst : (operandRecord w).inst = 0x7 := inst_of_mask hw (by decide)
  exact dispatch_addImm hinst

/-- `6XNN` is one register write of the immediate, whatever the state. -/
theorem exec_ldImm (x : Nibble) (nn : Byte) (s : State) : exec (.ldImm x nn) s = .next (s.setV x nn) := rfl

/-- `7XNN` is one register write of the 8-bit sum, whatever the state. -/
theorem exec_addImm (x : Nibble) (nn : Byte) (s : State) :
    exec (.addImm x nn) s = .next (s.setV x (s.getV x + nn)) := rfl

/-- An instruction that is one register write completes, leaves the written byte there and changes nothing else. -/
theorem completes_of_exec_setV {i : Instr} {s : State} {x : Nibble} {b : Byte} (h : exec i s = .next (s.setV x b)) :
    ∃ t, exec i s = .next t ∧ t.getV x = b ∧ s.ChangesOnly t [x] [] :=
  ⟨s.setV x b, h, getV_setV_self s x b, setV_changesOnly s x b⟩

/-- Settles O14: the mask leaves only the instruction's dispatch row, and each instruction is one register write; the
8-bit sum it writes for `7XNN` is the sum modulo 256. -/
theorem immediateLoadAndAdd : Obligations.ImmediateLoadAndAdd := by
  refine ⟨selects_ldImm, selects_addImm, fun x nn s => ⟨?ldImm, ?addImm⟩⟩
  case ldImm => exact completes_of_exec_setV (exec_ldImm x nn s)
  case addImm =>
    obtain ⟨t, hexec, hsum, hframe⟩ := completes_of_exec_setV (exec_addImm x nn s)
    have hmod : (t.getV x).toNat = ((s.getV x).toNat + nn.toNat) % 256 := by rw [hsum, BitVec.toNat_add]
    exact ⟨t, hexec, hmod, hframe⟩

end Sys2Proof.Machine

/-! The register copy `8XY0` (43_alu.md R150). -/

namespace Sys2Proof.Machine

/-- First-level dispatch for `inst` = 8 (R94): the meaning is the second level's, which is keyed on `N`. -/
theorem dispatch_alu {f : OperandRecord} (h : f.inst = 0x8) : dispatch f = decode8 f := by
  simp [dispatch, h]

/-- Second-level lookup for `N` = 0 (R96). -/
theorem decode8_ldReg {f : OperandRecord} (h : f.n = 0x0) : decode8 f = .ok (.ldReg f.x f.y) :=
  if_pos h

/-- The mask of R150 fixes the top nibble and `N`, the keys of the two lookups. -/
theorem selects_ldReg : Selects 0xF00F 0x8000 (fun f => .ldReg f.x f.y) := by
  intro w hw
  have hinst : (operandRecord w).inst = 0x8 := inst_of_mask hw (by decide)
  have hn : (operandRecord w).n = 0x0 := n_of_mask hw (by decide)
  exact (dispatch_alu hinst).trans (decode8_ldReg hn)

/-- `8XY0` is one register write of `x[Y]`, whatever the state. -/
theorem exec_ldReg (x y : Nibble) (s : State) : exec (.ldReg x y) s = .next (s.setV x (s.getV y)) := rfl

/-- Settles O15: the mask leaves only the copy's row of the second-level lookup, and the copy is one register write,
to VF as to any other register. -/
theorem registerCopy : Obligations.RegisterCopy :=
  ⟨selects_ldReg, fun x y s => completes_of_exec_setV (exec_ldReg x y s)⟩

end Sys2Proof.Machine

/-! Loading the index register, `ANNN` and `FX29` (44_index_jump_random.md R170, 48_index_memory.md R211). -/

namespace Sys2Proof.Machine

/-- First-level dispatch for `inst` = A (R94). -/
theorem dispatch_ldI {f : OperandRecord} (h : f.inst = 0xA) : dispatch f = .ok (.ldI f.nnn) := by
  simp [dispatch, h]

/-- First-level dispatch for `inst` = F (R94): the meaning is the second level's, which is keyed on `NN`. -/
theorem dispatch_misc {f : OperandRecord} (h : f.inst = 0xF) : dispatch f = decodeF f := by
  simp [dispatch, h]

/-- Second-level lookup for `NN` = 29 (R98). -/
theorem decodeF_ldF {f : OperandRecord} (h : f.nn = 0x29) : decodeF f = .ok (.ldF f.x) := by
  simp [decodeF, h]

/-- The mask of R170 fixes the top nibble, which alone selects `ANNN`. -/
theorem selects_ldI : Selects 0xF000 0xA000 (fun f => .ldI f.nnn) := by
  intro w hw
  have hinst : (operandRecord w).inst = 0xA := inst_of_mask hw (by decide)
  exact dispatch_ldI hinst

/-- The mask of R211 fixes the top nibble and `NN`, the keys of the two lookups. -/
theorem selects_ldF : Selects 0xF0FF 0xF029 (fun f => .ldF f.x) := by
  intro w hw
  have hinst : (operandRecord w).inst = 0xF := inst_of_mask hw (by decide)
  have hnn : (operandRecord w).nn = 0x29 := nn_of_mask hw (by decide)
  exact (dispatch_misc hinst).trans (decodeF_ldF hnn)

/-- `ANNN` writes the zero-extended immediate to `I`, whatever the state. -/
theorem exec_ldI (nnn : Imm12) (s : State) : exec (.ldI nnn) s = .next { s with I := nnn.setWidth 16 } := rfl

/-- `FX29` writes the glyph address of `x[X]` to `I`, whatever the state. -/
theorem exec_ldF (x : Nibble) (s : State) : exec (.ldF x) s = .next { s with I := s.glyphAddress x } := rfl

/-- Only bits 3:0 of `x[X]` count (R211). The product is at most 75, so it does not wrap at 16 bits. -/
theorem toNat_glyphAddress (s : State) (x : Nibble) : (s.glyphAddress x).toNat = 5 * ((s.getV x).toNat % 16) := by
  have hnibble : (s.getV x &&& 0x0F).toNat = (s.getV x).toNat % 16 :=
    (BitVec.toNat_and _ _).trans (Nat.and_two_pow_sub_one_eq_mod _ 4)
  rw [State.glyphAddress, BitVec.toNat_mul, BitVec.toNat_setWidth_of_le (by decide), hnibble]
  exact Nat.mod_eq_of_lt (show 5 * ((s.getV x).toNat % 16) < 65536 by omega)

/-- An instruction that is one write of `I` completes and changes nothing else; `n` is the address it leaves there. -/
theorem completes_of_exec_index {i : Instr} {s : State} {a : Word} {n : Nat} (h : exec i s = .next { s with I := a })
    (ha : a.toNat = n) : ∃ t, exec i s = .next t ∧ t.I.toNat = n ∧ s.ChangesOnly t [] [.index] :=
  ⟨{ s with I := a }, h, ha, index_changesOnly s a⟩

/-- Settles O21: each mask leaves only the instruction's rows of the lookups, and each instruction is one write of `I`,
of the zero-extended immediate or of the glyph address. -/
theorem indexLoads : Obligations.IndexLoads := by
  refine ⟨selects_ldI, selects_ldF, fun nnn x s => ⟨?ldI, ?ldF⟩⟩
  case ldI => exact completes_of_exec_index (exec_ldI nnn s) (BitVec.toNat_setWidth_of_le (by decide))
  case ldF => exact completes_of_exec_index (exec_ldF x s) (toNat_glyphAddress s x)

end Sys2Proof.Machine

/-! Reading the delay timer, `FX07` (47_timers_keywait.md R200). -/

namespace Sys2Proof.Machine

/-- Second-level lookup for `NN` = 07 (R98). -/
theorem decodeF_ldVxDt {f : OperandRecord} (h : f.nn = 0x07) : decodeF f = .ok (.ldVxDt f.x) :=
  if_pos h

/-- The mask of R200 fixes the top nibble and `NN`, the keys of the two lookups. -/
theorem selects_ldVxDt : Selects 0xF0FF 0xF007 (fun f => .ldVxDt f.x) := by
  intro w hw
  have hinst : (operandRecord w).inst = 0xF := inst_of_mask hw (by decide)
  have hnn : (operandRecord w).nn = 0x07 := nn_of_mask hw (by decide)
  exact (dispatch_misc hinst).trans (decodeF_ldVxDt hnn)

/-- `FX07` is one register write of `DT`, whatever the state. -/
theorem exec_ldVxDt (x : Nibble) (s : State) : exec (.ldVxDt x) s = .next (s.setV x s.DT) := rfl

/-- Settles O26: the mask leaves only the instruction's row of the second-level lookup, and the instruction is one
register write of `DT`. -/
theorem delayTimerIsRead : Obligations.DelayTimerIsRead :=
  ⟨selects_ldVxDt, fun x s => completes_of_exec_setV (exec_ldVxDt x s)⟩

end Sys2Proof.Machine

/-! The timer driver's and the host's steps (60_exceptions.md R245, R249, R251). -/

namespace Sys2Proof.Machine

/-- A `TimerStep` changes only the two timers. -/
theorem timerStep_changesOnly (s : State) : s.ChangesOnly s.timerStep [] [.delayTimer, .soundTimer] :=
  ⟨fun _ _ => rfl, fun _ => rfl, fun _ => rfl, fun _ => ⟨rfl, rfl⟩, fun h => absurd (by simp) h,
    fun h => absurd (by simp) h, fun _ _ => rfl, fun _ _ _ => rfl, fun _ => rfl, rfl, rfl, rfl, rfl, rfl⟩

/-- With `TimerStep` at the head of the agenda the step takes it off and steps the timers, whatever `run` is. -/
theorem step_of_timerStep {s : State} {rest : List Event} (h : s.env.agenda = .timerStep :: rest) :
    step s = .next (State.timerStep { s with env := { s.env with agenda := rest } }) :=
  step_eq_perform h

/-- With `SetKeys(k)` at the head of the agenda the step takes it off and sets the latch, whatever `run` is. -/
theorem step_of_setKeys {s : State} {k : BitVec 16} {rest : List Event} (h : s.env.agenda = .setKeys k :: rest) :
    step s = .next (State.setKeys { s with env := { s.env with agenda := rest } } k) :=
  step_eq_perform h

/-- With `RenderAck` at the head of the agenda the step takes it off and clears `draw_dirty`, whatever `run` is. -/
theorem step_of_renderAck {s : State} {rest : List Event} (h : s.env.agenda = .renderAck :: rest) :
    step s = .next (State.renderAck { s with env := { s.env with agenda := rest } }) :=
  step_eq_perform h

/-- Settles O47: the step is the event `timerStep` in the state with the event off the agenda; each timer is one count
down, which is the natural number's truncated predecessor. -/
theorem timerStepDecrementsBoth : Obligations.TimerStepDecrementsBoth := fun s _ h =>
  ⟨_, step_of_timerStep h, toNat_countDown s.DT, toNat_countDown s.ST, rfl, timerStep_changesOnly _⟩

/-- Settles O48: each step is the host's one write in the state with the event off the agenda. -/
theorem hostWritesKeysAndAcknowledges : Obligations.HostWritesKeysAndAcknowledges :=
  fun _ _ => ⟨fun _ => step_of_setKeys, step_of_renderAck⟩

end Sys2Proof.Machine

/-! The decoder and the encoder are inverse to each other, and what the decoder rejects (30_encoding.md R90 to R103). -/

namespace Sys2Proof

/-- Every encoded word has its instruction's row of the two lookups: the formats cut back into the fields they were
built from. -/
theorem decode_encode (i : Instr) : decode (encode i) = .ok i := by
  cases i <;> simp [decode, encode, dispatch, decode0, decode8, decodeE, decodeF]

/-- Settles O1: the two bytes make the encoded word again, and the word decodes to its instruction. -/
theorem decodeReadsBackEveryEncoding : Obligations.DecodeReadsBackEveryEncoding := by
  intro i rest
  simp [encodeBytes, decodeBytes, decode_encode]

/-- A word is the `NNN` format of its own fields; `k` is the row's `inst`. -/
theorem formNNN_eq_of_inst {w : Word} {k : Nibble} (hinst : (operandRecord w).inst = k) :
    formNNN k (operandRecord w).nnn = w :=
  hinst ▸ formNNN_of_fields w

/-- A word is the `XNN` format of its own fields; `k` and `b` are the row's `inst` and low byte. -/
theorem formXNN_eq_of_inst_nn {w : Word} {k : Nibble} {b : Byte} (hinst : (operandRecord w).inst = k)
    (hnn : (operandRecord w).nn = b) : formXNN k (operandRecord w).x b = w :=
  hinst ▸ hnn ▸ formXNN_of_fields w

/-- A word is the `XYN` format of its own fields; `k` and `m` are the row's `inst` and low nibble. -/
theorem formXYN_eq_of_inst_n {w : Word} {k m : Nibble} (hinst : (operandRecord w).inst = k)
    (hn : (operandRecord w).n = m) : formXYN k (operandRecord w).x (operandRecord w).y m = w :=
  hinst ▸ hn ▸ formXYN_of_fields w

/-! Each second-level lookup answers an instruction that encodes to the word it was cut from. -/

theorem encode_of_decode0 {w : Word} {i : Instr} (hinst : (operandRecord w).inst = 0x0)
    (h : decode0 (operandRecord w) = .ok i) : encode i = w := by
  unfold decode0 at h
  split_ifs at h <;> cases h <;> exact formXNN_eq_of_inst_nn hinst ‹_›

theorem encode_of_decode8 {w : Word} {i : Instr} (hinst : (operandRecord w).inst = 0x8)
    (h : decode8 (operandRecord w) = .ok i) : encode i = w := by
  unfold decode8 at h
  split_ifs at h <;> cases h <;> exact formXYN_eq_of_inst_n hinst ‹_›

theorem encode_of_decodeE {w : Word} {i : Instr} (hinst : (operandRecord w).inst = 0xE)
    (h : decodeE (operandRecord w) = .ok i) : encode i = w := by
  unfold decodeE at h
  split_ifs at h <;> cases h <;> exact formXNN_eq_of_inst_nn hinst ‹_›

theorem encode_of_decodeF {w : Word} {i : Instr} (hinst : (operandRecord w).inst = 0xF)
    (h : decodeF (operandRecord w) = .ok i) : encode i = w := by
  unfold decodeF at h
  split_ifs at h <;> cases h <;> exact formXNN_eq_of_inst_nn hinst ‹_›

/-! Each second-level lookup rejects exactly the keys that are in no row, by its own name (R100). -/

theorem decode0_error_iff {f : OperandRecord} {e : Reject} :
    decode0 f = .error e ↔ f.nn.toNat ∉ [0xE0, 0xEE] ∧ e = .unknown0 f.opcode := by
  simp only [decode0, ← BitVec.toNat_inj]
  split_ifs <;> simp_all [@eq_comm _ e]

theorem decode8_error_iff {f : OperandRecord} {e : Reject} :
    decode8 f = .error e ↔ f.n.toNat ∉ [0x0, 0x1, 0x2, 0x3, 0x4, 0x5, 0x6, 0x7, 0xE] ∧ e = .unknown8 f.opcode := by
  simp only [decode8, ← BitVec.toNat_inj]
  split_ifs <;> simp_all [@eq_comm _ e]

theorem decodeE_error_iff {f : OperandRecord} {e : Reject} :
    decodeE f = .error e ↔ f.nn.toNat ∉ [0x9E, 0xA1] ∧ e = .unknownE f.opcode := by
  simp only [decodeE, ← BitVec.toNat_inj]
  split_ifs <;> simp_all [@eq_comm _ e]

theorem decodeF_error_iff {f : OperandRecord} {e : Reject} :
    decodeF f = .error e ↔
      f.nn.toNat ∉ [0x07, 0x0A, 0x15, 0x18, 0x1E, 0x29, 0x33, 0x55, 0x65] ∧ e = .unknownF f.opcode := by
  simp only [decodeF, ← BitVec.toNat_inj]
  split_ifs <;> simp_all [@eq_comm _ e]

/-! The rows of the first-level dispatch (R94) that stand nowhere above; `inst` 0 and E go on to a second level. -/

theorem dispatch_sys {f : OperandRecord} (h : f.inst = 0x0) : dispatch f = decode0 f := if_pos h

theorem dispatch_call {f : OperandRecord} (h : f.inst = 0x2) : dispatch f = .ok (.call f.nnn) := by
  simp [dispatch, h]

theorem dispatch_seReg {f : OperandRecord} (h : f.inst = 0x5) : dispatch f = .ok (.seReg f.x f.y f.n) := by
  simp [dispatch, h]

theorem dispatch_sneReg {f : OperandRecord} (h : f.inst = 0x9) : dispatch f = .ok (.sneReg f.x f.y f.n) := by
  simp [dispatch, h]

theorem dispatch_jpV0 {f : OperandRecord} (h : f.inst = 0xB) : dispatch f = .ok (.jpV0 f.nnn) := by
  simp [dispatch, h]

theorem dispatch_rnd {f : OperandRecord} (h : f.inst = 0xC) : dispatch f = .ok (.rnd f.x f.nn) := by
  simp [dispatch, h]

theorem dispatch_drw {f : OperandRecord} (h : f.inst = 0xD) : dispatch f = .ok (.drw f.x f.y f.n) := by
  simp [dispatch, h]

theorem dispatch_keys {f : OperandRecord} (h : f.inst = 0xE) : dispatch f = decodeE f := by
  simp [dispatch, h]

theorem nibble_cases (k : Nibble) : k = 0x0 ∨ k = 0x1 ∨ k = 0x2 ∨ k = 0x3 ∨ k = 0x4 ∨ k = 0x5 ∨ k = 0x6 ∨ k = 0x7 ∨
    k = 0x8 ∨ k = 0x9 ∨ k = 0xA ∨ k = 0xB ∨ k = 0xC ∨ k = 0xD ∨ k = 0xE ∨ k = 0xF := by
  revert k; decide

/-- What the first level does (R94): an instruction of the fields, which encodes to the word again, or one of the four
second-level lookups. -/
theorem decode_cases (w : Word) :
    (∃ i, decode w = .ok i ∧ encode i = w) ∨
    ((operandRecord w).inst = 0x0 ∧ decode w = decode0 (operandRecord w)) ∨
    ((operandRecord w).inst = 0x8 ∧ decode w = decode8 (operandRecord w)) ∨
    ((operandRecord w).inst = 0xE ∧ decode w = decodeE (operandRecord w)) ∨
    ((operandRecord w).inst = 0xF ∧ decode w = decodeF (operandRecord w)) := by
  obtain h | h | h | h | h | h | h | h | h | h | h | h | h | h | h | h := nibble_cases (operandRecord w).inst
  · exact .inr (.inl ⟨h, dispatch_sys h⟩)
  · exact .inl ⟨_, Machine.dispatch_jp h, formNNN_eq_of_inst h⟩
  · exact .inl ⟨_, dispatch_call h, formNNN_eq_of_inst h⟩
  · exact .inl ⟨_, Machine.dispatch_seImm h, formXNN_eq_of_inst_nn h rfl⟩
  · exact .inl ⟨_, Machine.dispatch_sneImm h, formXNN_eq_of_inst_nn h rfl⟩
  · exact .inl ⟨_, dispatch_seReg h, formXYN_eq_of_inst_n h rfl⟩
  · exact .inl ⟨_, Machine.dispatch_ldImm h, formXNN_eq_of_inst_nn h rfl⟩
  · exact .inl ⟨_, Machine.dispatch_addImm h, formXNN_eq_of_inst_nn h rfl⟩
  · exact .inr (.inr (.inl ⟨h, Machine.dispatch_alu h⟩))
  · exact .inl ⟨_, dispatch_sneReg h, formXYN_eq_of_inst_n h rfl⟩
  · exact .inl ⟨_, Machine.dispatch_ldI h, formNNN_eq_of_inst h⟩
  · exact .inl ⟨_, dispatch_jpV0 h, formNNN_eq_of_inst h⟩
  · exact .inl ⟨_, dispatch_rnd h, formXNN_eq_of_inst_nn h rfl⟩
  · exact .inl ⟨_, dispatch_drw h, formXYN_eq_of_inst_n h rfl⟩
  · exact .inr (.inr (.inr (.inl ⟨h, dispatch_keys h⟩)))
  · exact .inr (.inr (.inr (.inr ⟨h, Machine.dispatch_misc h⟩)))

/-- An opcode that decodes is the encoding of its instruction. -/
theorem encode_of_decode {w : Word} {i : Instr} (h : decode w = .ok i) : encode i = w := by
  obtain ⟨j, hj, hw⟩ | ⟨hinst, hd⟩ | ⟨hinst, hd⟩ | ⟨hinst, hd⟩ | ⟨hinst, hd⟩ := decode_cases w
  · cases hj.symm.trans h; exact hw
  · exact encode_of_decode0 hinst (hd.symm.trans h)
  · exact encode_of_decode8 hinst (hd.symm.trans h)
  · exact encode_of_decodeE hinst (hd.symm.trans h)
  · exact encode_of_decodeF hinst (hd.symm.trans h)

/-- Settles O2: the lookup that answers the instruction names the row the word's own fields fill. -/
theorem encodeGivesBackTheOpcode : Obligations.EncodeGivesBackTheOpcode :=
  fun _ _ => encode_of_decode

/-- The four ways an opcode is rejected (R100), and no other. -/
theorem decode_error_iff {w : Word} {e : Reject} :
    decode w = .error e ↔
      (w.toNat / 4096 = 0x0 ∧ w.toNat % 256 ∉ [0xE0, 0xEE] ∧ e = .unknown0 w) ∨
      (w.toNat / 4096 = 0x8 ∧ w.toNat % 16 ∉ [0x0, 0x1, 0x2, 0x3, 0x4, 0x5, 0x6, 0x7, 0xE] ∧ e = .unknown8 w) ∨
      (w.toNat / 4096 = 0xE ∧ w.toNat % 256 ∉ [0x9E, 0xA1] ∧ e = .unknownE w) ∨
      (w.toNat / 4096 = 0xF ∧ w.toNat % 256 ∉ [0x07, 0x0A, 0x15, 0x18, 0x1E, 0x29, 0x33, 0x55, 0x65] ∧
        e = .unknownF w) := by
  have hkey : ∀ k : Nibble, (operandRecord w).inst = k ↔ w.toNat / 4096 = k.toNat := fun k => by
    rw [← BitVec.toNat_inj, toNat_inst]
  simp only [← toNat_nn, ← toNat_n]
  constructor
  · intro h
    obtain ⟨j, hj, -⟩ | ⟨hinst, hd⟩ | ⟨hinst, hd⟩ | ⟨hinst, hd⟩ | ⟨hinst, hd⟩ := decode_cases w
    · cases hj.symm.trans h
    · exact .inl ⟨(hkey _).mp hinst, decode0_error_iff.mp (hd.symm.trans h)⟩
    · exact .inr (.inl ⟨(hkey _).mp hinst, decode8_error_iff.mp (hd.symm.trans h)⟩)
    · exact .inr (.inr (.inl ⟨(hkey _).mp hinst, decodeE_error_iff.mp (hd.symm.trans h)⟩))
    · exact .inr (.inr (.inr ⟨(hkey _).mp hinst, decodeF_error_iff.mp (hd.symm.trans h)⟩))
  · rintro (⟨hinst, h⟩ | ⟨hinst, h⟩ | ⟨hinst, h⟩ | ⟨hinst, h⟩)
    · exact (dispatch_sys ((hkey 0x0).mpr hinst)).trans (decode0_error_iff.mpr h)
    · exact (Machine.dispatch_alu ((hkey 0x8).mpr hinst)).trans (decode8_error_iff.mpr h)
    · exact (dispatch_keys ((hkey 0xE).mpr hinst)).trans (decodeE_error_iff.mpr h)
    · exact (Machine.dispatch_misc ((hkey 0xF).mpr hinst)).trans (decodeF_error_iff.mpr h)

/-- The variants of `inst` = 8 that are in no row, as R100 lists them. -/
theorem unknown8_variants (n : Nat) : n % 16 ∉ [0x0, 0x1, 0x2, 0x3, 0x4, 0x5, 0x6, 0x7, 0xE] ↔
    n % 16 ∈ [0x8, 0x9, 0xA, 0xB, 0xC, 0xD, 0xF] := by
  have hlists : ∀ m < 16, m ∉ [0x0, 0x1, 0x2, 0x3, 0x4, 0x5, 0x6, 0x7, 0xE] ↔
      m ∈ [0x8, 0x9, 0xA, 0xB, 0xC, 0xD, 0xF] := by decide
  exact hlists _ (Nat.mod_lt n (by decide))

/-- Settles O4: the reasons carry the name of the lookup, so each names its own case of the four. -/
theorem rejectedOpcodesAreTheUnknownOnes : Obligations.RejectedOpcodesAreTheUnknownOnes := by
  intro w
  refine ⟨?_, ?_, ?_, ?_, fun e he => ?_⟩
  · rw [decode_error_iff]; simp
  · rw [decode_error_iff, unknown8_variants]; simp
  · rw [decode_error_iff]; simp
  · rw [decode_error_iff]; simp
  · obtain ⟨-, -, h⟩ | ⟨-, -, h⟩ | ⟨-, -, h⟩ | ⟨-, -, h⟩ := decode_error_iff.mp he
    · exact .inl h
    · exact .inr (.inl h)
    · exact .inr (.inr (.inl h))
    · exact .inr (.inr (.inr h))

/-- Settles O3: each row is one of the three formats, and a format is the sum of its fields' values. -/
theorem encodingsAreTheTables : Obligations.EncodingsAreTheTables := by
  intro x y n nn nnn
  simp only [encode, toNat_formNNN, toNat_formXNN, toNat_formXYN]
  and_intros <;> simp <;> omega

/-- Settles O5: each word is one computation of the decoder. -/
theorem writtenOutWordsDecode : Obligations.WrittenOutWordsDecode := by
  unfold Obligations.WrittenOutWordsDecode
  decide

end Sys2Proof

/-! Which opcodes select an instruction (the "match ... under mask ..." lines of 40_screen_return_jump_call.md to
48_index_memory.md). -/

namespace Sys2Proof.Machine

/-- The mask 0xF000 fixes `inst`, the key of the first-level dispatch (R94). -/
theorem selects_of_inst {pattern : Word} {k : Nibble} {build : OperandRecord → Instr}
    (hk : (operandRecord pattern).inst = k) (h : ∀ {f : OperandRecord}, f.inst = k → dispatch f = .ok (build f)) :
    Selects 0xF000 pattern build :=
  fun _ hw => h ((inst_of_mask hw (by decide)).trans hk)

/-- The mask 0xF0FF fixes `inst` and `NN`; with `inst` = 0 they are the keys of the two lookups (R94, R95). -/
theorem selects_of_decode0 {pattern : Word} {build : OperandRecord → Instr} (b : Byte)
    (hk : (operandRecord pattern).inst = 0x0 ∧ (operandRecord pattern).nn = b)
    (h : ∀ {f : OperandRecord}, f.nn = b → decode0 f = .ok (build f)) : Selects 0xF0FF pattern build :=
  fun _ hw => (dispatch_sys ((inst_of_mask hw (by decide)).trans hk.1)).trans
    (h ((nn_of_mask hw (by decide)).trans hk.2))

/-- The mask 0xF00F fixes `inst` and `N`; with `inst` = 8 they are the keys of the two lookups (R94, R96). -/
theorem selects_of_decode8 {pattern : Word} {build : OperandRecord → Instr} (m : Nibble)
    (hk : (operandRecord pattern).inst = 0x8 ∧ (operandRecord pattern).n = m)
    (h : ∀ {f : OperandRecord}, f.n = m → decode8 f = .ok (build f)) : Selects 0xF00F pattern build :=
  fun _ hw => (dispatch_alu ((inst_of_mask hw (by decide)).trans hk.1)).trans
    (h ((n_of_mask hw (by decide)).trans hk.2))

/-- The mask 0xF0FF with `inst` = E (R94, R97). -/
theorem selects_of_decodeE {pattern : Word} {build : OperandRecord → Instr} (b : Byte)
    (hk : (operandRecord pattern).inst = 0xE ∧ (operandRecord pattern).nn = b)
    (h : ∀ {f : OperandRecord}, f.nn = b → decodeE f = .ok (build f)) : Selects 0xF0FF pattern build :=
  fun _ hw => (dispatch_keys ((inst_of_mask hw (by decide)).trans hk.1)).trans
    (h ((nn_of_mask hw (by decide)).trans hk.2))

/-- The mask 0xF0FF with `inst` = F (R94, R98). -/
theorem selects_of_decodeF {pattern : Word} {build : OperandRecord → Instr} (b : Byte)
    (hk : (operandRecord pattern).inst = 0xF ∧ (operandRecord pattern).nn = b)
    (h : ∀ {f : OperandRecord}, f.nn = b → decodeF f = .ok (build f)) : Selects 0xF0FF pattern build :=
  fun _ hw => (dispatch_misc ((inst_of_mask hw (by decide)).trans hk.1)).trans
    (h ((nn_of_mask hw (by decide)).trans hk.2))

theorem selects_call : Selects 0xF000 0x2000 (fun f => .call f.nnn) :=
  selects_of_inst (by decide) dispatch_call

theorem selects_seReg : Selects 0xF000 0x5000 (fun f => .seReg f.x f.y f.n) :=
  selects_of_inst (by decide) dispatch_seReg

theorem selects_sneReg : Selects 0xF000 0x9000 (fun f => .sneReg f.x f.y f.n) :=
  selects_of_inst (by decide) dispatch_sneReg

theorem selects_jpV0 : Selects 0xF000 0xB000 (fun f => .jpV0 f.nnn) :=
  selects_of_inst (by decide) dispatch_jpV0

theorem selects_rnd : Selects 0xF000 0xC000 (fun f => .rnd f.x f.nn) :=
  selects_of_inst (by decide) dispatch_rnd

theorem selects_drw : Selects 0xF000 0xD000 (fun f => .drw f.x f.y f.n) :=
  selects_of_inst (by decide) dispatch_drw

theorem selects_cls : Selects 0xF0FF 0x00E0 (fun f => .cls f.x) :=
  selects_of_decode0 0xE0 (by decide) fun h => by simp [decode0, h]

theorem selects_ret : Selects 0xF0FF 0x00EE (fun f => .ret f.x) :=
  selects_of_decode0 0xEE (by decide) fun h => by simp [decode0, h]

theorem selects_orReg : Selects 0xF00F 0x8001 (fun f => .orReg f.x f.y) :=
  selects_of_decode8 0x1 (by decide) fun h => by simp [decode8, h]

theorem selects_andReg : Selects 0xF00F 0x8002 (fun f => .andReg f.x f.y) :=
  selects_of_decode8 0x2 (by decide) fun h => by simp [decode8, h]

theorem selects_xorReg : Selects 0xF00F 0x8003 (fun f => .xorReg f.x f.y) :=
  selects_of_decode8 0x3 (by decide) fun h => by simp [decode8, h]

theorem selects_addReg : Selects 0xF00F 0x8004 (fun f => .addReg f.x f.y) :=
  selects_of_decode8 0x4 (by decide) fun h => by simp [decode8, h]

theorem selects_sub : Selects 0xF00F 0x8005 (fun f => .sub f.x f.y) :=
  selects_of_decode8 0x5 (by decide) fun h => by simp [decode8, h]

theorem selects_shr : Selects 0xF00F 0x8006 (fun f => .shr f.x f.y) :=
  selects_of_decode8 0x6 (by decide) fun h => by simp [decode8, h]

theorem selects_subn : Selects 0xF00F 0x8007 (fun f => .subn f.x f.y) :=
  selects_of_decode8 0x7 (by decide) fun h => by simp [decode8, h]

theorem selects_shl : Selects 0xF00F 0x800E (fun f => .shl f.x f.y) :=
  selects_of_decode8 0xE (by decide) fun h => by simp [decode8, h]

theorem selects_skp : Selects 0xF0FF 0xE09E (fun f => .skp f.x) :=
  selects_of_decodeE 0x9E (by decide) fun h => by simp [decodeE, h]

theorem selects_sknp : Selects 0xF0FF 0xE0A1 (fun f => .sknp f.x) :=
  selects_of_decodeE 0xA1 (by decide) fun h => by simp [decodeE, h]

theorem selects_ldVxK : Selects 0xF0FF 0xF00A (fun f => .ldVxK f.x) :=
  selects_of_decodeF 0x0A (by decide) fun h => by simp [decodeF, h]

theorem selects_ldDtVx : Selects 0xF0FF 0xF015 (fun f => .ldDtVx f.x) :=
  selects_of_decodeF 0x15 (by decide) fun h => by simp [decodeF, h]

theorem selects_ldStVx : Selects 0xF0FF 0xF018 (fun f => .ldStVx f.x) :=
  selects_of_decodeF 0x18 (by decide) fun h => by simp [decodeF, h]

theorem selects_addI : Selects 0xF0FF 0xF01E (fun f => .addI f.x) :=
  selects_of_decodeF 0x1E (by decide) fun h => by simp [decodeF, h]

theorem selects_ldB : Selects 0xF0FF 0xF033 (fun f => .ldB f.x) :=
  selects_of_decodeF 0x33 (by decide) fun h => by simp [decodeF, h]

theorem selects_stRegs : Selects 0xF0FF 0xF055 (fun f => .stRegs f.x) :=
  selects_of_decodeF 0x55 (by decide) fun h => by simp [decodeF, h]

theorem selects_ldRegs : Selects 0xF0FF 0xF065 (fun f => .ldRegs f.x) :=
  selects_of_decodeF 0x65 (by decide) fun h => by simp [decodeF, h]

end Sys2Proof.Machine

/-! What every instruction may do: the fault it raises and when (60_exceptions.md R230), and the registers and parts it
may write (10_state.md R24 to R37). -/

namespace Sys2Proof.Machine

/-- The fault an instruction raises in a state, if any: the conditions of R230 and R232 to R237, in the order of
R240. -/
def faultOf (i : Instr) (s : State) : Option FaultKind :=
  match i with
  | .ret _ => if s.sp.val = 0 then some .stackUnderflow else none
  | .call _ => if s.sp.val = 48 then some .stackOverflow else none
  | .drw _ _ n => if 1 ≤ n.toNat ∧ 0xFFF < s.I.toNat + n.toNat - 1 then some .memRange else none
  | .skp x | .sknp x => if 15 < (s.getV x).toNat then some .keyIndex else none
  | .ldB _ =>
    if 0xFFF < s.I.toNat + 2 then some .memRange else if s.I.toNat < 0x200 then some .storeProtect else none
  | .stRegs x =>
    if 0xFFF < s.I.toNat + x.toNat then some .memRange
    else if s.I.toNat < 0x200 then some .storeProtect else none
  | .ldRegs x => if 0xFFF < s.I.toNat + x.toNat then some .memRange else none
  | _ => none

/-- The general registers an instruction may write (R21, R35). -/
def writtenRegs : Instr → List Nibble
  | .ldImm x _ | .addImm x _ | .rnd x _ | .ldVxDt x | .ldVxK x => [x]
  | .ldReg x _ | .orReg x _ | .andReg x _ | .xorReg x _ => [x]
  | .addReg x _ | .sub x _ | .subn x _ | .shr x _ | .shl x _ => [x, 0xF]
  | .drw _ _ _ => [0xF]
  | .ldRegs x => (List.range (x.toNat + 1)).map (BitVec.ofNat 4)
  | _ => []

/-- `FX55` and `FX65` may write `I` under `QUIRK_INDEX`, and else they may not (R213, R214). -/
def indexParts (c : Config) : List Part :=
  if c.quirkIndex then [.index] else []

/-- The other parts of the state an instruction may write (R22, R24, R26, R29, R32, R69). -/
def writtenParts (c : Config) : Instr → List Part
  | .cls _ | .drw _ _ _ => [.display, .drawDirty]
  | .ret _ | .call _ => [.pc, .stack]
  | .jp _ | .jpV0 _ => [.pc]
  | .seImm _ _ | .sneImm _ _ | .seReg _ _ _ | .sneReg _ _ _ | .skp _ | .sknp _ | .ldVxK _ => [.pc]
  | .ldI _ | .addI _ | .ldF _ => [.index]
  | .ldDtVx _ => [.delayTimer]
  | .ldStVx _ => [.soundTimer]
  | .ldB _ => [.memory]
  | .stRegs _ => .memory :: indexParts c
  | .ldRegs _ => indexParts c
  | _ => []

/-- A frame may always be widened. -/
theorem State.ChangesOnly.mono {s t : State} {regs regs' : List Nibble} {parts parts' : List Part}
    (h : s.ChangesOnly t regs parts) (hr : regs ⊆ regs') (hp : parts ⊆ parts') : s.ChangesOnly t regs' parts' where
  V n hn := h.V n fun hm => hn (hr hm)
  index hn := h.index fun hm => hn (hp hm)
  pc hn := h.pc fun hm => hn (hp hm)
  stack hn := h.stack fun hm => hn (hp hm)
  delayTimer hn := h.delayTimer fun hm => hn (hp hm)
  soundTimer hn := h.soundTimer fun hm => hn (hp hm)
  memory hn := h.memory fun hm => hn (hp hm)
  display hn := h.display fun hm => hn (hp hm)
  drawDirty hn := h.drawDirty fun hm => hn (hp hm)
  keys := h.keys
  run := h.run
  loadOpen := h.loadOpen
  config := h.config
  env := h.env

/-! The frame of each update an instruction makes. -/

theorem display_changesOnly (s : State) (d : Vector (BitVec 64) 32) (b : Bool) :
    s.ChangesOnly { s with disp := d, drawDirty := b } [] [.display, .drawDirty] := by
  constructor <;> simp [State.getV, State.readByte]

theorem pop_changesOnly (s : State) (a : Word) (n : Fin 49) :
    s.ChangesOnly { s with pc := a, sp := n } [] [.pc, .stack] := by
  constructor <;> simp [State.getV, State.readByte, State.cell]

theorem push_changesOnly (s : State) (st : Vector Word 48) (n : Fin 49) (a : Word) :
    s.ChangesOnly { s with stack := st, sp := n, pc := a } [] [.pc, .stack] := by
  constructor <;> simp [State.getV, State.readByte, State.cell]

theorem delayTimer_changesOnly (s : State) (b : Byte) : s.ChangesOnly { s with DT := b } [] [.delayTimer] := by
  constructor <;> simp [State.getV, State.readByte, State.cell]

theorem soundTimer_changesOnly (s : State) (b : Byte) : s.ChangesOnly { s with ST := b } [] [.soundTimer] := by
  constructor <;> simp [State.getV, State.readByte, State.cell]

theorem memory_changesOnly (s : State) (m : Memory) : s.ChangesOnly { s with mem := m } [] [.memory] := by
  constructor <;> simp [State.getV, State.cell]

theorem drawSprite_changesOnly (s : State) (x y : Nibble) (bytes : List Byte) :
    s.ChangesOnly (s.drawSprite x y bytes) [0xF] [.display, .drawDirty] where
  V n hn := getV_setV_ne s _ (by simpa [regF] using hn)
  index _ := rfl
  pc _ := rfl
  stack _ := ⟨rfl, rfl⟩
  delayTimer _ := rfl
  soundTimer _ := rfl
  memory _ _ := rfl
  display h := absurd (by simp) h
  drawDirty h := absurd (by simp) h
  keys := rfl
  run := rfl
  loadOpen := rfl
  config := rfl
  env := rfl

theorem flagThenResult_changesOnly (flag : Byte → Byte → Bool) (op : Byte → Byte → Byte) (x y : Nibble) (s : State) :
    s.ChangesOnly (flagThenResult flag op x y s) [x, 0xF] [] :=
  changesOnly_of_V (flagThenResult_frame flag op x y s) fun n hn => by
    obtain ⟨hx, hF⟩ : n ≠ x ∧ n ≠ regF := by simpa [regF] using hn
    exact getV_flagThenResult_ne flag op y s hx hF

theorem resultThenFlag_changesOnly (out : Byte → Bool) (op : Byte → Byte) (x y : Nibble) (s : State) :
    s.ChangesOnly (resultThenFlag out op x y s) [x, 0xF] [] :=
  changesOnly_of_V (resultThenFlag_frame out op x y s) fun n hn => by
    obtain ⟨hx, hF⟩ : n ≠ x ∧ n ≠ regF := by simpa [regF] using hn
    exact getV_resultThenFlag_ne out op y s hx hF

/-- A change followed by the advance of `I`: `I` joins the frame under `QUIRK_INDEX`. -/
theorem State.ChangesOnly.advanceIndex {s t : State} {regs : List Nibble} {parts : List Part}
    (h : s.ChangesOnly t regs parts) (x : Nibble) :
    s.ChangesOnly (t.advanceIndex x) regs (parts ++ indexParts s.config) := by
  have hwide := h.mono (List.Subset.refl _) (List.subset_append_left parts (indexParts s.config))
  unfold State.advanceIndex
  split
  · next hq =>
    have hindex : Part.index ∈ indexParts s.config := by simp [indexParts, ← h.config, hq]
    exact { hwide with index := fun hn => absurd (List.mem_append_right _ hindex) hn }
  · exact hwide

/-- The registers from 0 to `X` are those `FX65` names (R214). -/
theorem mem_regsTo {x n : Nibble} :
    n ∈ (List.range (x.toNat + 1)).map (BitVec.ofNat 4) ↔ n.toNat ≤ x.toNat := by
  rw [List.mem_map]
  constructor
  · rintro ⟨k, hk, rfl⟩
    have hk := List.mem_range.mp hk
    rw [BitVec.toNat_ofNat]
    exact (Nat.mod_le _ _).trans (by omega)
  · exact fun h => ⟨n.toNat, List.mem_range.mpr (by omega), by simp⟩

theorem loadRegisters_frame (s : State) (bytes : List Byte) : { s.loadRegisters bytes with V := s.V } = s := by
  unfold State.loadRegisters
  rfl

theorem loadRegisters_changesOnly (s : State) (x : Nibble) {bytes : List Byte} (h : bytes.length = x.toNat + 1) :
    s.ChangesOnly (s.loadRegisters bytes) ((List.range (x.toNat + 1)).map (BitVec.ofNat 4)) [] := by
  refine changesOnly_of_V (loadRegisters_frame s bytes) fun n hn => ?_
  have hn : x.toNat < n.toNat := by simpa only [mem_regsTo, Nat.not_le] using hn
  rw [getV_loadRegisters, List.getD_eq_default _ _ (by omega)]

end Sys2Proof.Machine

/-! What every instruction answers, said once from its fault condition and its row of the two tables of what it may
write; and what it does to `pc` and the stack (60_exceptions.md R236, R240; 10_state.md R24, R26). -/

namespace Sys2Proof.Machine

/-- An instruction whose fault condition holds enters that fault. -/
theorem exec_of_faultOf {i : Instr} {s : State} {k : FaultKind} (h : faultOf i s = some k) :
    exec i s = .next (s.faulted i k) := by
  cases i with
  | ret u =>
    obtain ⟨hs, rfl⟩ : s.sp.val = 0 ∧ .stackUnderflow = k := by simpa [faultOf] using h
    exact execRet_zero hs
  | call nnn =>
    obtain ⟨hs, rfl⟩ : s.sp.val = 48 ∧ .stackOverflow = k := by simpa [faultOf] using h
    exact execCall_full hs
  | drw x y n =>
    obtain ⟨⟨hn, hI⟩, rfl⟩ : (1 ≤ n.toNat ∧ 0xFFF < s.I.toNat + n.toNat - 1) ∧ .memRange = k := by
      simpa [faultOf] using h
    exact execDrw_error hn hI
  | skp x =>
    obtain ⟨hx, rfl⟩ : 15 < (s.getV x).toNat ∧ .keyIndex = k := by simpa [faultOf] using h
    exact execSkp_error hx
  | sknp x =>
    obtain ⟨hx, rfl⟩ : 15 < (s.getV x).toNat ∧ .keyIndex = k := by simpa [faultOf] using h
    exact execSknp_error hx
  | ldB x =>
    simp only [faultOf] at h
    split_ifs at h with hI hlo <;> cases h
    · exact execLdB_range hI
    · exact execLdB_protect hlo
  | stRegs x =>
    simp only [faultOf] at h
    split_ifs at h with hI hlo <;> cases h
    · exact execStRegs_range hI
    · exact execStRegs_protect hlo
  | ldRegs x =>
    obtain ⟨hI, rfl⟩ : 0xFFF < s.I.toNat + x.toNat ∧ .memRange = k := by simpa [faultOf] using h
    exact execLdRegs_range hI
  | _ => cases h

/-- `exec_of_faultOf` as the claims word it. -/
theorem faultsWith_of_faultOf {i : Instr} {s : State} {k : FaultKind} (h : faultOf i s = some k) : FaultsWith i k s :=
  exec_of_faultOf h

/-! Where no fault condition holds, the operands are in range. -/

theorem sp_lt_of_no_fault {nnn : Imm12} {s : State} (h : faultOf (.call nnn) s = none) : s.sp.val < 48 := by
  have : s.sp.val ≠ 48 := by simpa [faultOf] using h
  omega

theorem sprite_range_of_no_fault {x y n : Nibble} {s : State} (h : faultOf (.drw x y n) s = none) :
    n.toNat = 0 ∨ s.I.toNat + n.toNat - 1 ≤ 0xFFF := by
  have : ¬ (1 ≤ n.toNat ∧ 0xFFF < s.I.toNat + n.toNat - 1) := by simpa [faultOf] using h
  omega

theorem bcd_range_of_no_fault {x : Nibble} {s : State} (h : faultOf (.ldB x) s = none) :
    0x200 ≤ s.I.toNat ∧ s.I.toNat + 2 ≤ 0xFFF := by
  simp only [faultOf] at h
  split_ifs at h
  omega

theorem store_range_of_no_fault {x : Nibble} {s : State} (h : faultOf (.stRegs x) s = none) :
    0x200 ≤ s.I.toNat ∧ s.I.toNat + x.toNat ≤ 0xFFF := by
  simp only [faultOf] at h
  split_ifs at h
  omega

/-- An instruction whose fault condition does not hold completes, and changes only what it may write. -/
theorem exec_completes {i : Instr} {s : State} (h : faultOf i s = none) :
    ∃ t, exec i s = .next t ∧ s.ChangesOnly t (writtenRegs i) (writtenParts s.config i) := by
  cases i with
  | cls u => exact ⟨_, rfl, display_changesOnly s _ _⟩
  | ret u => exact ⟨_, execRet_pos (by simpa [faultOf] using h), pop_changesOnly s _ _⟩
  | jp nnn => exact ⟨_, rfl, pc_changesOnly s _⟩
  | call nnn => exact ⟨_, execCall_room (sp_lt_of_no_fault h), push_changesOnly s _ _ _⟩
  | seImm x nn => exact ⟨_, rfl, skipIf_changesOnly s _⟩
  | sneImm x nn => exact ⟨_, rfl, skipIf_changesOnly s _⟩
  | seReg x y u => exact ⟨_, rfl, skipIf_changesOnly s _⟩
  | sneReg x y u => exact ⟨_, rfl, skipIf_changesOnly s _⟩
  | ldImm x nn => exact ⟨_, rfl, setV_changesOnly s x _⟩
  | addImm x nn => exact ⟨_, rfl, setV_changesOnly s x _⟩
  | ldReg x y => exact ⟨_, rfl, setV_changesOnly s x _⟩
  | orReg x y => exact ⟨_, rfl, setV_changesOnly s x _⟩
  | andReg x y => exact ⟨_, rfl, setV_changesOnly s x _⟩
  | xorReg x y => exact ⟨_, rfl, setV_changesOnly s x _⟩
  | addReg x y => exact ⟨_, rfl, flagThenResult_changesOnly _ _ x y s⟩
  | sub x y => exact ⟨_, rfl, flagThenResult_changesOnly _ _ x y s⟩
  | subn x y => exact ⟨_, rfl, flagThenResult_changesOnly _ _ x y s⟩
  | shr x y => exact ⟨_, rfl, resultThenFlag_changesOnly _ _ x y s⟩
  | shl x y => exact ⟨_, rfl, resultThenFlag_changesOnly _ _ x y s⟩
  | ldI nnn => exact ⟨_, rfl, index_changesOnly s _⟩
  | jpV0 nnn => exact ⟨_, rfl, pc_changesOnly s _⟩
  | rnd x nn => exact ⟨_, rfl, setV_changesOnly s x _⟩
  | drw x y n => exact ⟨_, execDrw_ok (sprite_range_of_no_fault h), drawSprite_changesOnly s x y _⟩
  | skp x => exact ⟨_, execSkp_ok (by simpa [faultOf] using h), skipIf_changesOnly s _⟩
  | sknp x => exact ⟨_, execSknp_ok (by simpa [faultOf] using h), skipIf_changesOnly s _⟩
  | ldVxDt x => exact ⟨_, rfl, setV_changesOnly s x _⟩
  | ldVxK x =>
    cases hk : s.keySelect with
    | none => exact ⟨_, execLdVxK_none hk, (pc_changesOnly s _).mono (by simp) (by simp [writtenParts])⟩
    | some k => exact ⟨_, execLdVxK_some hk, (setV_changesOnly s x _).mono (by simp [writtenRegs]) (by simp)⟩
  | ldDtVx x => exact ⟨_, rfl, delayTimer_changesOnly s _⟩
  | ldStVx x => exact ⟨_, rfl, soundTimer_changesOnly s _⟩
  | addI x => exact ⟨_, rfl, index_changesOnly s _⟩
  | ldF x => exact ⟨_, rfl, index_changesOnly s _⟩
  | ldB x =>
    obtain ⟨hlo, hI⟩ := bcd_range_of_no_fault h
    exact ⟨_, execLdB_ok hlo hI, memory_changesOnly s _⟩
  | stRegs x =>
    obtain ⟨hlo, hI⟩ := store_range_of_no_fault h
    exact ⟨_, execStRegs_ok hlo hI, (memory_changesOnly s _).advanceIndex x⟩
  | ldRegs x =>
    have hI : s.I.toNat + x.toNat ≤ 0xFFF := by simpa [faultOf] using h
    exact ⟨_, execLdRegs_ok hI, (loadRegisters_changesOnly s x (length_readSpan _ _ _ _)).advanceIndex x⟩

/-- What an instruction can answer, said once: the fault whose condition holds, entered from `s`, or with no condition
holding a state that differs from `s` only in what the instruction may write. -/
theorem exec_cases {i : Instr} {s t : State} (h : exec i s = .next t) :
    (∃ k, faultOf i s = some k ∧ t = s.faulted i k) ∨
    (faultOf i s = none ∧ s.ChangesOnly t (writtenRegs i) (writtenParts s.config i)) := by
  cases hf : faultOf i s with
  | some k => exact .inl ⟨k, rfl, by cases (exec_of_faultOf hf).symm.trans h; rfl⟩
  | none =>
    obtain ⟨u, hu, hframe⟩ := exec_completes hf
    cases hu.symm.trans h
    exact .inr ⟨rfl, hframe⟩

/-- Where a completed instruction leaves `pc` (R24). -/
theorem exec_pc {i : Instr} {s t : State} (h : exec i s = .next t) (hf : faultOf i s = none) :
    t.pc = s.pc ∨
    (((∃ x nn, i = .seImm x nn ∨ i = .sneImm x nn) ∨ (∃ x y u, i = .seReg x y u ∨ i = .sneReg x y u) ∨
      (∃ x, i = .skp x ∨ i = .sknp x)) ∧ t.pc = s.pc + 2) ∨
    ((∃ x, i = .ldVxK x) ∧ t.pc = s.pc - 2) ∨
    (∃ nnn, (i = .jp nnn ∨ i = .call nnn) ∧ t.pc = jumpTarget nnn) ∨
    (∃ nnn, i = .jpV0 nnn ∧ t.pc = s.offsetTarget nnn) ∨
    (∃ u, i = .ret u ∧ s.sp.val ≠ 0 ∧ t.pc = s.stack[s.sp.val - 1]'(by omega)) := by
  have hskip : ∀ c, (s.skipIf c).pc = s.pc ∨ (s.skipIf c).pc = s.pc + 2 := fun c => by cases c <;> simp
  cases i with
  | seImm x nn => cases h; exact (hskip _).imp id fun e => .inl ⟨.inl ⟨x, nn, .inl rfl⟩, e⟩
  | sneImm x nn => cases h; exact (hskip _).imp id fun e => .inl ⟨.inl ⟨x, nn, .inr rfl⟩, e⟩
  | seReg x y u => cases h; exact (hskip _).imp id fun e => .inl ⟨.inr (.inl ⟨x, y, u, .inl rfl⟩), e⟩
  | sneReg x y u => cases h; exact (hskip _).imp id fun e => .inl ⟨.inr (.inl ⟨x, y, u, .inr rfl⟩), e⟩
  | skp x =>
    rw [execSkp_ok (by simpa [faultOf] using hf)] at h
    cases h
    exact (hskip _).imp id fun e => .inl ⟨.inr (.inr ⟨x, .inl rfl⟩), e⟩
  | sknp x =>
    rw [execSknp_ok (by simpa [faultOf] using hf)] at h
    cases h
    exact (hskip _).imp id fun e => .inl ⟨.inr (.inr ⟨x, .inr rfl⟩), e⟩
  | ldVxK x =>
    cases hk : s.keySelect with
    | none =>
      rw [execLdVxK_none hk] at h
      cases h
      exact .inr (.inr (.inl ⟨⟨x, rfl⟩, rfl⟩))
    | some k =>
      rw [execLdVxK_some hk] at h
      cases h
      exact .inl rfl
  | jp nnn => cases h; exact .inr (.inr (.inr (.inl ⟨nnn, .inl rfl, rfl⟩)))
  | call nnn =>
    rw [execCall_room (sp_lt_of_no_fault hf)] at h
    cases h
    exact .inr (.inr (.inr (.inl ⟨nnn, .inr rfl, rfl⟩)))
  | jpV0 nnn => cases h; exact .inr (.inr (.inr (.inr (.inl ⟨nnn, rfl, rfl⟩))))
  | ret u =>
    have hs : s.sp.val ≠ 0 := by simpa [faultOf] using hf
    rw [execRet_pos hs] at h
    cases h
    exact .inr (.inr (.inr (.inr (.inr ⟨u, rfl, hs, rfl⟩))))
  | _ =>
    obtain ⟨k, hk, -⟩ | ⟨-, hframe⟩ := exec_cases h
    · cases hk.symm.trans hf
    · exact .inl (hframe.pc (by simp [writtenParts, indexParts]))

/-- What an instruction does to the stack (R26): `2NNN` pushes the advanced `pc`, `00EE` drops a cell, the others leave
it alone. -/
theorem exec_stack {i : Instr} {s t : State} (h : exec i s = .next t) :
    (t.stack = s.stack ∧ t.sp.val ≤ s.sp.val) ∨
    ∃ hs : s.sp.val < 48, t.stack = s.stack.set s.sp.val s.pc ∧ t.sp.val = s.sp.val + 1 := by
  obtain ⟨k, -, rfl⟩ | ⟨hf, hframe⟩ := exec_cases h
  · exact .inl ⟨rfl, le_rfl⟩
  cases i with
  | ret u =>
    rw [execRet_pos (by simpa [faultOf] using hf)] at h
    cases h
    exact .inl ⟨rfl, Nat.sub_le _ _⟩
  | call nnn =>
    have hs := sp_lt_of_no_fault hf
    rw [execCall_room hs] at h
    cases h
    exact .inr ⟨hs, rfl, rfl⟩
  | _ =>
    obtain ⟨hstack, hsp⟩ := hframe.stack (by simp [writtenParts, indexParts])
    exact .inl ⟨hstack, by rw [hsp]⟩

end Sys2Proof.Machine

/-! The invariants of every step (10_state.md, 20_memory.md R60 to R63, 60_exceptions.md R236). -/

namespace Sys2Proof.Machine

/-- Memory and configuration after any step: as they were; as after reset; or with one span stored that lies in
0x200..0xFFF, by an instruction or by `LoadROM`. -/
theorem step_mem {s t : State} (h : step s = .next t) :
    t.config = s.config ∧
      (t.mem = s.mem ∨ t.mem = [] ∨ ∃ (a : Nat) (bs : List Byte), 0x200 ≤ a ∧ a + bs.length ≤ 4096 ∧
        t.mem = Memory.writeSpan s.config.font s.mem a bs) := by
  obtain ⟨env, ⟨rnd, h⟩ | rfl | ⟨k, rfl⟩ | rfl | ⟨-, rfl⟩ | ⟨rom, h⟩ | h⟩ := step_cases h
  · obtain ⟨-, -, ⟨-, rfl⟩ | ⟨-, w, -, ⟨e, -, rfl⟩ | ⟨i, -, h⟩⟩⟩ := tick_cases h
    · exact ⟨rfl, .inl rfl⟩
    · exact ⟨rfl, .inl rfl⟩
    · have hc := exec_config h
      obtain hm | ⟨bs, hlo, hhi, hm⟩ := exec_mem h
      · exact ⟨hc, .inl hm⟩
      · exact ⟨hc, .inr (.inr ⟨s.I.toNat, bs, hlo, hhi, hm⟩)⟩
  · exact ⟨rfl, .inl rfl⟩
  · exact ⟨rfl, .inl rfl⟩
  · exact ⟨rfl, .inl rfl⟩
  · exact ⟨rfl, .inr (.inl rfl)⟩
  · obtain ⟨-, hlen, rfl⟩ := loadRom_cases h
    exact ⟨rfl, .inr (.inr ⟨0x200, rom, le_rfl, by omega, rfl⟩)⟩
  · obtain ⟨-, r, -, -, rfl⟩ := skipFault_cases h
    exact ⟨rfl, .inl rfl⟩

/-- Settles O58: it is half of what a step does to memory and configuration. -/
theorem stepKeepsConfiguration : Obligations.StepKeepsConfiguration :=
  fun _ _ h => (step_mem h).1

theorem wf_nil (font : Font) : Memory.wf font [] := ⟨List.Pairwise.nil, fun _ h => by cases h⟩

/-- Settles O54: the empty list is canonical, and storing a span inside the memory keeps the form. -/
theorem stepKeepsMemoryCanonical : Obligations.StepKeepsMemoryCanonical := by
  intro s t hs h
  obtain ⟨hc, hm | hm | ⟨a, bs, -, hhi, hm⟩⟩ := step_mem h <;> unfold State.MemoryCanonical <;> rw [hc, hm]
  · exact hs
  · exact wf_nil _
  · exact writeSpan_keeps_wf bs a hs hhi

/-- Settles O55: below 0x200 the empty list reads as after reset, and a span stored from 0x200 up is not seen. -/
theorem stepKeepsLowMemoryFixed : Obligations.StepKeepsLowMemoryFixed := by
  intro s t hs h a ha
  obtain ⟨hc, hm | hm | ⟨b, bs, hlo, -, hm⟩⟩ := step_mem h
  · rw [readByte_congr hm hc, hc]
    exact hs a ha
  · rw [State.readByte, hm]
    exact read_nil _ a
  · rw [State.readByte, hm, hc, read_writeSpan_outside _ _ _ _ (.inl (by omega))]
    exact hs a ha

/-- The reset state with any configuration and any schedule: where a run begins, and what `Reset` leaves. -/
def bootWith (c : Config) (e : Environment) : State :=
  { State.boot c with env := e }

/-- A record stays truthful while `run`, `pc`, memory, configuration and the load gate do. -/
theorem faultTruthful_congr {s t : State} (hs : s.FaultTruthful) (hr : t.run = s.run) (hl : t.loadOpen = s.loadOpen)
    (hp : t.pc = s.pc) (hm : t.mem = s.mem) (hc : t.config = s.config) : t.FaultTruthful := by
  intro r h
  rw [hl, hp, fetch_congr hp hm hc]
  exact hs r (hr.symm.trans h)

/-- A running machine has no record. -/
theorem faultTruthful_of_running {s : State} (h : s.run = .running) : s.FaultTruthful :=
  fun _ hr => by cases h.symm.trans hr

/-- A fault entered at a fetch address in memory, with the word fetched there: the record is truthful. -/
theorem faultTruthful_enterFault {s : State} {k : FaultKind} {a w : Word} (hl : s.loadOpen = false)
    (ha : a.toNat ≤ 0xFFE) (hw : State.fetch { s with pc := a } = .ok w)
    (hk : k = .unknownOpcode → ∃ e, decode w = .error e) : (s.enterFault k a (some w)).FaultTruthful := by
  intro r hr
  cases hr
  refine ⟨hl, rfl, nofun, ?_, fun h => ?_⟩
  · rintro _ ⟨⟩
    exact ⟨ha, hw⟩
  · obtain ⟨e, he⟩ := hk h
    exact ⟨w, e, rfl, he⟩

/-- The range fault of a fetch: no opcode, and an address the fetch cannot reach. -/
theorem faultTruthful_fetchFault {s : State} (hl : s.loadOpen = false) (hp : 0xFFE < s.pc.toNat) :
    (s.enterFault .memRange s.pc none).FaultTruthful := by
  intro r hr
  cases hr
  exact ⟨hl, rfl, fun _ => ⟨rfl, hp⟩, nofun, nofun⟩

/-- A Tick leaves a truthful record: its instruction, if any, ran from the fetch address with the word there, which
the instruction encodes to. -/
theorem tick_faultTruthful {s t : State} {rnd : Byte} (h : s.tick rnd = .next t) : t.FaultTruthful := by
  obtain ⟨hr, hl, ⟨hp, rfl⟩ | ⟨hp, w, hw, ⟨e, he, rfl⟩ | ⟨i, hi, h⟩⟩⟩ := tick_cases h
  · exact faultTruthful_fetchFault hl hp
  · exact faultTruthful_enterFault hl hp hw fun _ => ⟨e, he⟩
  · obtain ⟨k, hk, rfl⟩ | ⟨-, hrun, -⟩ := exec_fault_or_result h
    · have hpc : (s.openTick rnd).advancePc.pc - 2 = s.pc := BitVec.add_sub_cancel _ _
      rw [State.faulted, hpc, encode_of_decode hi]
      exact faultTruthful_enterFault hl hp hw fun hu => absurd hu hk
    · exact faultTruthful_of_running (hrun.trans hr)

/-- Settles O56: a Tick enters only truthful records; of the other events only `LoadROM` touches what a record speaks
of, and it is closed in a faulted state. -/
theorem stepKeepsFaultRecordTruthful : Obligations.StepKeepsFaultRecordTruthful := by
  intro s t hs h
  obtain ⟨env, ⟨rnd, h⟩ | rfl | ⟨k, rfl⟩ | rfl | ⟨-, rfl⟩ | ⟨rom, h⟩ | h⟩ := step_cases h
  · exact tick_faultTruthful h
  · exact faultTruthful_congr hs rfl rfl rfl rfl rfl
  · exact faultTruthful_congr hs rfl rfl rfl rfl rfl
  · exact faultTruthful_congr hs rfl rfl rfl rfl rfl
  · exact faultTruthful_of_running rfl
  · obtain ⟨hopen, -, rfl⟩ := loadRom_cases h
    intro r hr
    obtain ⟨hclosed, -⟩ := hs r hr
    cases hopen.symm.trans hclosed
  · obtain ⟨-, r, -, -, rfl⟩ := skipFault_cases h
    exact faultTruthful_of_running rfl

/-- Two states with the same `pc`, stack cells and stack pointer have them in range together. -/
theorem pcInRange_congr {s t : State} (hs : s.PcInRange) (hp : t.pc = s.pc) (hst : t.stack = s.stack)
    (hsp : t.sp = s.sp) : t.PcInRange :=
  ⟨hp ▸ hs.pc, fun k hk => by rw [hst]; exact hs.stack k (hsp ▸ hk)⟩

/-- `BNNN` reaches at most 0xFFF + 0xFF (R171). -/
theorem toNat_offsetTarget (s : State) (nnn : Imm12) :
    (s.offsetTarget nnn).toNat = nnn.toNat + (s.getV 0x0).toNat := by
  have hn : (nnn.setWidth 16).toNat = nnn.toNat := BitVec.toNat_setWidth_of_le (by decide)
  have hv : ((s.getV 0).setWidth 16).toNat = (s.getV 0x0).toNat := BitVec.toNat_setWidth_of_le (by decide)
  have := nnn.isLt
  have := (s.getV 0x0).isLt
  rw [State.offsetTarget, BitVec.toNat_add, hn, hv]
  exact Nat.mod_eq_of_lt (by omega)

/-- The fetch advance at an address that can be fetched from does not wrap. -/
theorem toNat_add_two {a : Word} {n : Nat} (ha : a.toNat ≤ n) (hn : n ≤ 0xFFFD) : (a + 2).toNat ≤ n + 2 := by
  have h2 : (2 : Word).toNat = 2 := rfl
  rw [BitVec.toNat_add, h2, Nat.mod_eq_of_lt (by omega)]
  omega

/-- An instruction run from an advanced `pc` of at most 0x1000 keeps the ranges. -/
theorem exec_pcInRange {i : Instr} {s t : State} (h : exec i s = .next t) (hp : s.pc.toNat ≤ 0x1000)
    (hp' : (s.pc - 2).toNat ≤ 0xFFE) (hs : s.PcInRange) : t.PcInRange := by
  refine ⟨?pc, ?stack⟩
  case pc =>
    obtain ⟨k, -, rfl⟩ | ⟨hf, -⟩ := exec_cases h
    · exact hp'.trans (by decide)
    obtain e | ⟨-, e⟩ | ⟨-, e⟩ | ⟨nnn, -, e⟩ | ⟨nnn, -, e⟩ | ⟨u, -, hsp, e⟩ := exec_pc h hf <;> rw [e]
    · exact hs.pc
    · exact (toNat_add_two hp (by decide)).trans (by decide)
    · exact hp'.trans (by decide)
    · rw [toNat_jumpTarget]
      have := nnn.isLt
      omega
    · rw [toNat_offsetTarget]
      have := nnn.isLt
      have := (s.getV 0x0).isLt
      omega
    · exact (hs.stack ⟨s.sp.val - 1, by omega⟩ (by simp only; omega)).trans (by decide)
  case stack =>
    intro k hk
    obtain ⟨hst, hsp⟩ | ⟨hlt, hst, hsp⟩ := exec_stack h
    · rw [hst]
      exact hs.stack k (hk.trans_le hsp)
    · simp only [hst, Fin.getElem_fin, Vector.getElem_set]
      split
      · exact hp
      · exact hs.stack k (by omega)

theorem pcInRange_bootWith (c : Config) (e : Environment) : (bootWith c e).PcInRange :=
  ⟨show (0x200 : Word).toNat ≤ 0x10FE by decide, fun _ hk => absurd hk (Nat.not_lt_zero _)⟩

/-- Settles O57: a Tick fetches at 0xFFE at most, and so does the record the skip move goes on from. -/
theorem stepKeepsPcInRange : Obligations.StepKeepsPcInRange := by
  intro s t hft hs h
  obtain ⟨env, ⟨rnd, h⟩ | rfl | ⟨k, rfl⟩ | rfl | ⟨-, rfl⟩ | ⟨rom, h⟩ | h⟩ := step_cases h
  · obtain ⟨-, -, ⟨-, rfl⟩ | ⟨hp, w, -, ⟨e, -, rfl⟩ | ⟨i, -, h⟩⟩⟩ := tick_cases h
    · exact pcInRange_congr hs rfl rfl rfl
    · exact pcInRange_congr hs rfl rfl rfl
    · have hadv : (s.pc + 2).toNat ≤ 0x1000 := toNat_add_two hp (by decide)
      have hfetch : (s.pc + 2 - 2).toNat ≤ 0xFFE := by rwa [BitVec.add_sub_cancel]
      exact exec_pcInRange h hadv hfetch ⟨hadv.trans (by decide), hs.stack⟩
  · exact pcInRange_congr hs rfl rfl rfl
  · exact pcInRange_congr hs rfl rfl rfl
  · exact pcInRange_congr hs rfl rfl rfl
  · exact pcInRange_bootWith _ _
  · obtain ⟨-, -, rfl⟩ := loadRom_cases h
    exact pcInRange_congr hs rfl rfl rfl
  · obtain ⟨-, r, hr, hk, rfl⟩ := skipFault_cases h
    obtain ⟨-, -, -, hword, hunknown⟩ := hft r hr
    obtain ⟨w, e, hw, -⟩ := hunknown hk
    exact ⟨(toNat_add_two (hword w hw).1 (by decide)).trans (by decide), hs.stack⟩

/-- The state after reset meets every invariant, for every configuration and schedule (R42). -/
theorem bootWith_invariants (c : Config) (e : Environment) :
    (bootWith c e).MemoryCanonical ∧ (bootWith c e).LowMemoryFixed ∧ (bootWith c e).FaultTruthful ∧
      (bootWith c e).PcInRange :=
  ⟨wf_nil _, fun a _ => read_nil _ a, faultTruthful_of_running rfl, pcInRange_bootWith c e⟩

/-- Settles O59: the reset state is the boot state of the default configuration. -/
theorem resetMeetsTheInvariants : Obligations.ResetMeetsTheInvariants :=
  bootWith_invariants defaultConfig (State.boot defaultConfig).env

/-- Settles O60: the invariants hold at reset and every step keeps them, together. -/
theorem reachableStatesMeetTheInvariants : Obligations.ReachableStatesMeetTheInvariants := by
  intro c e t h
  refine reachable_induction (P := fun u => u.MemoryCanonical ∧ u.LowMemoryFixed ∧ u.FaultTruthful ∧ u.PcInRange ∧
    u.config = c) ?reset ?step h
  case reset =>
    obtain ⟨hmem, hlow, hfault, hpc⟩ := bootWith_invariants c e
    exact ⟨hmem, hlow, hfault, hpc, rfl⟩
  case step =>
    rintro u v ⟨hmem, hlow, hfault, hpc, hc⟩ hstep
    exact ⟨stepKeepsMemoryCanonical u v hmem hstep, stepKeepsLowMemoryFixed u v hlow hstep,
      stepKeepsFaultRecordTruthful u v hfault hstep, stepKeepsPcInRange u v hfault hpc hstep,
      (stepKeepsConfiguration u v hstep).trans hc⟩

end Sys2Proof.Machine

/-! The rules over all instructions (10_state.md R21 to R43, 60_exceptions.md R230 to R240). -/

namespace Sys2Proof.Machine

/-- Settles O34: whether or not a fault condition holds, there is a next state. -/
theorem everyInstructionHasANextState : Obligations.EveryInstructionHasANextState := by
  intro i s
  cases hf : faultOf i s with
  | some k => exact ⟨_, exec_of_faultOf hf⟩
  | none =>
    obtain ⟨t, ht, -⟩ := exec_completes hf
    exact ⟨t, ht⟩

/-- Settles O35: an instruction that completes keeps `run`, so one that ends Faulted has entered its fault. -/
theorem instructionFaultsArePrecise : Obligations.InstructionFaultsArePrecise := by
  intro i s t hrun h hfaulted
  obtain ⟨k, -, rfl⟩ | ⟨-, hframe⟩ := exec_cases h
  · exact ⟨k, rfl⟩
  · exact absurd (hframe.run.trans hrun) hfaulted

/-- From a running state a fault of a kind is recorded exactly when its condition holds. -/
theorem raised_iff_faultOf {i : Instr} {s t : State} (hrun : s.run = .running) (h : exec i s = .next t)
    (k : FaultKind) : (∃ r, t.run = .faulted r ∧ r.kind = k) ↔ faultOf i s = some k := by
  obtain ⟨j, hj, rfl⟩ | ⟨hf, hframe⟩ := exec_cases h
  · simp [hj]
  · simp [hf, hframe.run, hrun]

/-! The condition of each kind (R230 to R237, R240): each line of `faultOf` names one kind, and the two of a store
exclude each other. -/

theorem faultOf_ne_unknownOpcode (i : Instr) (s : State) : faultOf i s ≠ some .unknownOpcode := by
  cases i with
  | ldB x => simp only [faultOf]; split_ifs <;> nofun
  | stRegs x => simp only [faultOf]; split_ifs <;> nofun
  | _ => simp [faultOf]

theorem faultOf_eq_stackOverflow {i : Instr} {s : State} :
    faultOf i s = some .stackOverflow ↔ (∃ nnn, i = .call nnn) ∧ s.sp.val = 48 := by
  cases i with
  | ldB x => simp only [faultOf]; split_ifs <;> simp
  | stRegs x => simp only [faultOf]; split_ifs <;> simp
  | _ => simp [faultOf]

theorem faultOf_eq_stackUnderflow {i : Instr} {s : State} :
    faultOf i s = some .stackUnderflow ↔ (∃ u, i = .ret u) ∧ s.sp.val = 0 := by
  cases i with
  | ldB x => simp only [faultOf]; split_ifs <;> simp
  | stRegs x => simp only [faultOf]; split_ifs <;> simp
  | _ => simp [faultOf]

theorem faultOf_eq_memRange {i : Instr} {s : State} :
    faultOf i s = some .memRange ↔
      (∃ x y n, i = .drw x y n ∧ 1 ≤ n.toNat ∧ 0xFFF < s.I.toNat + n.toNat - 1) ∨
      (∃ x, i = .ldB x ∧ 0xFFF < s.I.toNat + 2) ∨
      (∃ x, (i = .stRegs x ∨ i = .ldRegs x) ∧ 0xFFF < s.I.toNat + x.toNat) := by
  cases i with
  | drw x y n => simp [faultOf]; omega
  | ldB x => simp only [faultOf]; split_ifs <;> simp [*]
  | stRegs x => simp only [faultOf]; split_ifs <;> simp [*]
  | _ => simp [faultOf]

theorem faultOf_eq_storeProtect {i : Instr} {s : State} :
    faultOf i s = some .storeProtect ↔ (∃ x, i = .ldB x ∨ i = .stRegs x) ∧ s.I.toNat < 0x200 := by
  cases i with
  | ldB x => simp only [faultOf]; split_ifs <;> simp [*]; omega
  | stRegs x =>
    have := nibble_lt x
    simp only [faultOf]; split_ifs <;> simp [*]; omega
  | _ => simp [faultOf]

theorem faultOf_eq_keyIndex {i : Instr} {s : State} :
    faultOf i s = some .keyIndex ↔ ∃ x, (i = .skp x ∨ i = .sknp x) ∧ 15 < (s.getV x).toNat := by
  cases i with
  | ldB x => simp only [faultOf]; split_ifs <;> simp
  | stRegs x => simp only [faultOf]; split_ifs <;> simp
  | _ => simp [faultOf]

/-- Settles O36: a kind is raised exactly when its condition in `faultOf` holds. -/
theorem faultConditions : Obligations.FaultConditions := by
  intro i s t hrun h
  simp only [raised_iff_faultOf hrun h]
  exact ⟨faultOf_ne_unknownOpcode i s, faultOf_eq_stackOverflow, faultOf_eq_stackUnderflow, faultOf_eq_memRange,
    faultOf_eq_storeProtect, faultOf_eq_keyIndex⟩

/-- A register that an instruction changed is one it may write; a fault changes none. -/
theorem mem_writtenRegs_of_getV_ne {i : Instr} {s t : State} {n : Nibble} (h : exec i s = .next t)
    (hne : t.getV n ≠ s.getV n) : n ∈ writtenRegs i := by
  obtain ⟨k, -, rfl⟩ | ⟨-, hframe⟩ := exec_cases h
  · exact absurd rfl hne
  · exact by_contra fun hn => hne (hframe.V n hn)

/-- Settles O37: VF changed, so F is among the registers the instruction may write. -/
theorem onlySixClassesWriteTheFlag : Obligations.OnlySixClassesWriteTheFlag := by
  intro i s t h hne
  have hF : (0xF : Nibble) ∈ writtenRegs i := mem_writtenRegs_of_getV_ne h hne
  cases i with
  | ldRegs x =>
    have hx : (15 : Nat) ≤ x.toNat := mem_regsTo.mp hF
    have := nibble_lt x
    have : x = 0xF := BitVec.eq_of_toNat_eq (show x.toNat = 15 by omega)
    simp [this]
  | _ => simp_all [writtenRegs, eq_comm]

/-- A part that an instruction changed is one it may write; a fault changes none of these. -/
theorem exec_changed {i : Instr} {s t : State} (h : exec i s = .next t) :
    (t.I ≠ s.I → .index ∈ writtenParts s.config i) ∧
    (t.stack ≠ s.stack ∨ t.sp ≠ s.sp → .stack ∈ writtenParts s.config i) ∧
    (t.DT ≠ s.DT → .delayTimer ∈ writtenParts s.config i) ∧
    (t.ST ≠ s.ST → .soundTimer ∈ writtenParts s.config i) ∧
    (∀ a, t.readByte a ≠ s.readByte a → .memory ∈ writtenParts s.config i) := by
  obtain ⟨k, -, rfl⟩ | ⟨-, hframe⟩ := exec_cases h
  · exact ⟨absurd rfl, Or.rec (absurd rfl) (absurd rfl), absurd rfl, absurd rfl, fun a => absurd rfl⟩
  · refine ⟨fun hne => ?_, fun hne => ?_, fun hne => ?_, fun hne => ?_, fun a hne => ?_⟩ <;> by_contra hn
    · exact hne (hframe.index hn)
    · obtain ⟨hst, hsp⟩ := hframe.stack hn
      exact hne.elim (absurd hst) (absurd hsp)
    · exact hne (hframe.delayTimer hn)
    · exact hne (hframe.soundTimer hn)
    · exact hne (hframe.memory hn a)

/-! Who may write each part: the rows of `writtenParts` that name it. -/

theorem index_mem_writtenParts {c : Config} {i : Instr} (h : .index ∈ writtenParts c i) :
    (∃ nnn, i = .ldI nnn) ∨ (∃ x, i = .addI x ∨ i = .ldF x) ∨
      ((∃ x, i = .stRegs x ∨ i = .ldRegs x) ∧ c.quirkIndex = true) := by
  cases i <;> simp_all [writtenParts, indexParts]

theorem stack_mem_writtenParts {c : Config} {i : Instr} (h : .stack ∈ writtenParts c i) :
    (∃ nnn, i = .call nnn) ∨ ∃ u, i = .ret u := by
  cases i <;> simp_all [writtenParts, indexParts]

theorem delayTimer_mem_writtenParts {c : Config} {i : Instr} (h : .delayTimer ∈ writtenParts c i) :
    ∃ x, i = .ldDtVx x := by
  cases i <;> simp_all [writtenParts, indexParts]

theorem soundTimer_mem_writtenParts {c : Config} {i : Instr} (h : .soundTimer ∈ writtenParts c i) :
    ∃ x, i = .ldStVx x := by
  cases i <;> simp_all [writtenParts, indexParts]

theorem memory_mem_writtenParts {c : Config} {i : Instr} (h : .memory ∈ writtenParts c i) :
    ∃ x, i = .ldB x ∨ i = .stRegs x := by
  cases i <;> simp_all [writtenParts, indexParts]

theorem display_mem_writtenParts {c : Config} {i : Instr}
    (h : .display ∈ writtenParts c i ∨ .drawDirty ∈ writtenParts c i) :
    (∃ u, i = .cls u) ∨ ∃ x y n, i = .drw x y n := by
  cases i <;> simp_all [writtenParts, indexParts]

/-- `00EE` leaves the stack cells alone. -/
theorem execRet_stack {u : Nibble} {s t : State} (h : exec (.ret u) s = .next t) : t.stack = s.stack := by
  by_cases hs : s.sp.val = 0
  · rw [execRet_zero hs] at h; cases h; rfl
  · rw [execRet_pos hs] at h; cases h; rfl

/-- A byte an instruction changed lies where stores are allowed (R67). -/
theorem exec_changed_byte {i : Instr} {s t : State} (h : exec i s = .next t) {a : Nat}
    (hne : t.readByte a ≠ s.readByte a) : 0x200 ≤ a ∧ a ≤ 0xFFF := by
  have hc := exec_config h
  obtain hm | ⟨bs, hlo, hhi, hm⟩ := exec_mem h
  · exact absurd (readByte_congr hm hc a) hne
  · by_contra hout
    refine hne ?_
    rw [State.readByte, hm, hc, read_writeSpan_outside _ _ _ _ (by omega)]
    rfl

/-- Settles O38: what changed the instruction may write, and the table of what it may write names the instructions. -/
theorem onlyTheirWritersChangeSpecialState : Obligations.OnlyTheirWritersChangeSpecialState := by
  intro i s t h
  obtain ⟨hI, hstack, hDT, hST, hmem⟩ := exec_changed h
  refine ⟨fun hne => index_mem_writtenParts (hI hne), fun hne => ?_,
    fun hne => stack_mem_writtenParts (hstack (.inr hne)), fun hne => delayTimer_mem_writtenParts (hDT hne),
    fun hne => soundTimer_mem_writtenParts (hST hne), fun a hne => ?_⟩
  · obtain hcall | ⟨u, rfl⟩ := stack_mem_writtenParts (hstack (.inl hne))
    · exact hcall
    · exact absurd (execRet_stack h) hne
  · obtain ⟨hlo, hhi⟩ := exec_changed_byte h hne
    exact ⟨hlo, hhi, memory_mem_writtenParts (hmem a hne)⟩

/-- Settles O39: the running state after it shows that the instruction completed, and `exec_pc` lists where a completed
instruction leaves `pc`. -/
theorem onlyControlFlowWritesPc : Obligations.OnlyControlFlowWritesPc := by
  intro i s t hrun h hne htrun
  obtain ⟨k, -, rfl⟩ | ⟨hf, -⟩ := exec_cases h
  · cases htrun
  obtain e | hskip | hwait | ⟨nnn, rfl | rfl, -⟩ | ⟨nnn, rfl, -⟩ | ⟨u, rfl, -⟩ := exec_pc h hf
  · exact absurd e hne
  · exact .inr (.inr (.inl hskip))
  · exact .inr (.inr (.inr hwait))
  · exact .inr (.inl ⟨nnn, .inl rfl⟩)
  · exact .inr (.inl ⟨nnn, .inr (.inl rfl)⟩)
  · exact .inr (.inl ⟨nnn, .inr (.inr rfl)⟩)
  · exact .inl ⟨u, rfl⟩

/-- Displays with the same cells are the same display. -/
theorem disp_eq_of_cells {s t : State} (h : ∀ c r, t.cell c r = s.cell c r) : t.disp = s.disp := by
  refine Vector.ext fun r hr => BitVec.eq_of_getLsbD_eq fun c _ => ?_
  simpa [State.cell, cellAt, Vector.getD, hr] using h c r

/-- `draw_dirty` and the display after an instruction: only `00E0` and `DXYN` touch them, and neither clears
`draw_dirty` (R32). -/
theorem exec_display {i : Instr} {s t : State} (h : exec i s = .next t) :
    (s.drawDirty = true → t.drawDirty = true) ∧
    (t.drawDirty ≠ s.drawDirty ∨ t.disp ≠ s.disp → (∃ u, i = .cls u) ∨ ∃ x y n, i = .drw x y n) := by
  obtain ⟨k, -, rfl⟩ | ⟨hf, hframe⟩ := exec_cases h
  · exact ⟨id, Or.rec (absurd rfl) (absurd rfl)⟩
  refine ⟨fun hd => ?keeps, fun hne => ?writers⟩
  case writers =>
    refine display_mem_writtenParts (c := s.config) (by_contra fun hn => ?_)
    obtain ⟨hdisp, hdirty⟩ := not_or.mp hn
    exact hne.elim (absurd (hframe.drawDirty hdirty)) (absurd (disp_eq_of_cells (hframe.display hdisp)))
  case keeps =>
    by_cases hdirty : .drawDirty ∈ writtenParts s.config i
    · obtain ⟨u, rfl⟩ | ⟨x, y, n, rfl⟩ := display_mem_writtenParts (.inr hdirty)
      · cases h; rfl
      · have hs : ¬ (1 ≤ n.toNat ∧ 0xFFF < s.I.toNat + n.toNat - 1) := by simpa [faultOf] using hf
        rw [execDrw_ok (by omega)] at h
        cases h
        simp [State.drawSprite, hd]
    · rw [hframe.drawDirty hdirty, hd]

/-- Settles O40: a fault is entered from `s` and a result keeps the inputs; the display has its own lemma. -/
theorem instructionsOnlyReadInputs : Obligations.InstructionsOnlyReadInputs := by
  intro i s t h
  obtain ⟨hkeeps, hwriters⟩ := exec_display h
  obtain ⟨k, -, rfl⟩ | ⟨hkeys, -, hopen, hconfig, henv⟩ := exec_fault_or_result h
  · exact ⟨rfl, rfl, rfl, rfl, hkeeps, hwriters⟩
  · exact ⟨hkeys, hconfig, henv, hopen, hkeeps, hwriters⟩

/-- The state with another random byte and other outputs `ST` and `draw_dirty` (R29, R32, R39). -/
def State.perturbed (s : State) (r st : Byte) (dirty : Bool) : State :=
  { s with env := { s.env with rnd := r }, ST := st, drawDirty := dirty }

/-! Nothing an instruction is built from reads the random byte or the outputs. -/

theorem faultOf_perturbed (i : Instr) (s : State) (r st : Byte) (dirty : Bool) :
    faultOf i (s.perturbed r st dirty) = faultOf i s := by
  cases i <;> rfl

theorem skipIf_perturbed (s : State) (c : Bool) (r st : Byte) (dirty : Bool) :
    (s.perturbed r st dirty).skipIf c = (s.skipIf c).perturbed r st dirty := by
  cases c <;> rfl

theorem advanceIndex_perturbed (s : State) (x : Nibble) (r st : Byte) (dirty : Bool) :
    (s.perturbed r st dirty).advanceIndex x = (s.advanceIndex x).perturbed r st dirty := by
  cases hq : s.config.quirkIndex <;> simp [State.advanceIndex, State.perturbed, hq]

theorem loadRegisters_perturbed (s : State) (bytes : List Byte) (r st : Byte) (dirty : Bool) :
    (s.perturbed r st dirty).loadRegisters bytes = (s.loadRegisters bytes).perturbed r st dirty := by
  simp only [State.loadRegisters, State.perturbed]

/-- Two runs of an instruction that writes neither output, with the same random byte or not `CXNN` (R29, R32, R172):
it does the same to everything else, and leaves the outputs of each run alone. -/
theorem exec_perturbed_of_kept {i : Instr} {s t : State} (r st : Byte) (dirty : Bool)
    (hi : (∃ x nn, i = .rnd x nn) → r = s.env.rnd)
    (hkept : .soundTimer ∉ writtenParts s.config i ∧ .drawDirty ∉ writtenParts s.config i)
    (h : exec i s = .next t) : exec i (s.perturbed r st dirty) = .next (t.perturbed r st dirty) := by
  obtain ⟨k, hk, rfl⟩ | ⟨hf, -⟩ := exec_cases h
  · exact exec_of_faultOf ((faultOf_perturbed i s r st dirty).trans hk)
  have hskip (c : Bool) := congrArg (Host.Outcome.next (φ := Fault) (ρ := Refusal)) (skipIf_perturbed s c r st dirty)
  cases i with
  | cls u => simp [writtenParts] at hkept
  | ldStVx x => simp [writtenParts] at hkept
  | drw x y n => simp [writtenParts] at hkept
  | rnd x nn => cases h; cases hi ⟨x, nn, rfl⟩; rfl
  | seImm x nn => cases h; exact hskip _
  | sneImm x nn => cases h; exact hskip _
  | seReg x y u => cases h; exact hskip _
  | sneReg x y u => cases h; exact hskip _
  | ret u =>
    have hs : s.sp.val ≠ 0 := by simpa [faultOf] using hf
    cases (execRet_pos hs).symm.trans h
    exact execRet_pos (s := s.perturbed r st dirty) hs
  | call nnn =>
    have hs := sp_lt_of_no_fault hf
    cases (execCall_room hs).symm.trans h
    exact execCall_room (s := s.perturbed r st dirty) hs
  | skp x =>
    have hx : (s.getV x).toNat ≤ 15 := by simpa [faultOf] using hf
    cases (execSkp_ok hx).symm.trans h
    exact (execSkp_ok (s := s.perturbed r st dirty) hx).trans (hskip _)
  | sknp x =>
    have hx : (s.getV x).toNat ≤ 15 := by simpa [faultOf] using hf
    cases (execSknp_ok hx).symm.trans h
    exact (execSknp_ok (s := s.perturbed r st dirty) hx).trans (hskip _)
  | ldVxK x =>
    cases hk : s.keySelect with
    | none =>
      cases (execLdVxK_none hk).symm.trans h
      exact execLdVxK_none (s := s.perturbed r st dirty) hk
    | some k =>
      cases (execLdVxK_some hk).symm.trans h
      exact execLdVxK_some (s := s.perturbed r st dirty) hk
  | ldB x =>
    obtain ⟨hlo, hI⟩ := bcd_range_of_no_fault hf
    cases (execLdB_ok hlo hI).symm.trans h
    exact execLdB_ok (s := s.perturbed r st dirty) hlo hI
  | stRegs x =>
    obtain ⟨hlo, hI⟩ := store_range_of_no_fault hf
    cases (execStRegs_ok hlo hI).symm.trans h
    rw [execStRegs_ok (s := s.perturbed r st dirty) hlo hI, ← advanceIndex_perturbed]
    rfl
  | ldRegs x =>
    have hI : s.I.toNat + x.toNat ≤ 0xFFF := by simpa [faultOf] using hf
    cases (execLdRegs_ok hI).symm.trans h
    rw [execLdRegs_ok (s := s.perturbed r st dirty) hI, loadRegisters_perturbed, advanceIndex_perturbed]
    rfl
  | _ => cases h; rfl

/-- The same of every instruction; the outputs it leaves are the same if they were the same before. -/
theorem exec_perturbed {i : Instr} {s t : State} (r st : Byte) (dirty : Bool)
    (hi : (∃ x nn, i = .rnd x nn) → r = s.env.rnd) (h : exec i s = .next t) :
    ∃ st' dirty', exec i (s.perturbed r st dirty) = .next (t.perturbed r st' dirty') ∧
      (st = s.ST → dirty = s.drawDirty → st' = t.ST ∧ dirty' = t.drawDirty) := by
  obtain ⟨k, hk, rfl⟩ | ⟨hf, hframe⟩ := exec_cases h
  · exact ⟨st, dirty, exec_of_faultOf ((faultOf_perturbed i s r st dirty).trans hk), fun h1 h2 => ⟨h1, h2⟩⟩
  by_cases hST : .soundTimer ∈ writtenParts s.config i
  · obtain ⟨x, rfl⟩ := soundTimer_mem_writtenParts hST
    cases h
    exact ⟨s.getV x, dirty, rfl, fun _ h2 => ⟨rfl, h2⟩⟩
  by_cases hdirty : .drawDirty ∈ writtenParts s.config i
  · obtain ⟨u, rfl⟩ | ⟨x, y, n, rfl⟩ := display_mem_writtenParts (.inr hdirty)
    · cases h
      exact ⟨st, true, rfl, fun h1 _ => ⟨h1, rfl⟩⟩
    · have hrange := sprite_range_of_no_fault hf
      cases (execDrw_ok hrange).symm.trans h
      exact ⟨st, _, execDrw_ok (s := s.perturbed r st dirty) hrange, fun h1 h2 => ⟨h1, by rw [h2]; rfl⟩⟩
  · refine ⟨st, dirty, exec_perturbed_of_kept r st dirty hi ⟨hST, hdirty⟩ h, fun h1 h2 => ?_⟩
    exact ⟨h1.trans (hframe.soundTimer hST).symm, h2.trans (hframe.drawDirty hdirty).symm⟩

/-- Settles O41: the two runs of `exec_perturbed` with the outputs kept. -/
theorem onlyRndReadsTheRandomByte : Obligations.OnlyRndReadsTheRandomByte := by
  intro i s t r hi h
  obtain ⟨st, dirty, hexec, hout⟩ := exec_perturbed r s.ST s.drawDirty
    (fun ⟨x, nn, e⟩ => absurd e (hi x nn)) h
  obtain ⟨rfl, rfl⟩ := hout rfl rfl
  exact hexec

/-- Settles O42: the two runs of `exec_perturbed` with the random byte kept, which no instruction writes. -/
theorem outputsAreNeverRead : Obligations.OutputsAreNeverRead := by
  intro i s t st dirty h
  obtain ⟨st', dirty', hexec, -⟩ := exec_perturbed s.env.rnd st dirty (fun _ => rfl) h
  obtain ⟨-, -, henv, -⟩ := instructionsOnlyReadInputs i s t h
  refine ⟨_, hexec, ?_⟩
  rw [← henv]
  rfl

end Sys2Proof.Machine

/-! Screen, return, call and the remaining skips (40_screen_return_jump_call.md, 41_skips.md, 46_keys.md). -/

namespace Sys2Proof.Machine

/-- An unlit display has no lit cell, outside the grid either. -/
theorem cellAt_unlit (c r : Nat) : cellAt (Vector.replicate 32 0) c r = false := by
  by_cases hr : r < 32 <;> simp [cellAt, Vector.getD, hr]

/-- Settles O6: the mask leaves only the row of `00E0`, which replaces the display by the unlit one. -/
theorem clsClearsEveryCell : Obligations.ClsClearsEveryCell :=
  ⟨selects_cls, fun _ s => ⟨_, rfl, cellAt_unlit, rfl, display_changesOnly s _ _⟩⟩

/-- Settles O7: with a live cell the instruction is the pop, with none its fault condition holds. -/
theorem retPopsTheReturnAddress : Obligations.RetPopsTheReturnAddress := by
  refine ⟨selects_ret, fun u s => ⟨fun k hk => ?live, fun hs => ?empty⟩⟩
  case live =>
    have hs : s.sp.val - 1 = k.val := by omega
    refine ⟨_, execRet_pos (by omega), ?_, hs, rfl, pop_changesOnly s _ _⟩
    simp only [hs, Fin.getElem_fin]
  case empty => exact faultsWith_of_faultOf (by simp [faultOf, hs])

/-- Settles O9: with room the instruction is the push and the jump, with none its fault condition holds. -/
theorem callPushesAndJumps : Obligations.CallPushesAndJumps := by
  refine ⟨selects_call, fun nnn s => ⟨fun k hk => ?room, fun hs => ?full⟩⟩
  case room =>
    refine ⟨_, execCall_room (by omega), toNat_jumpTarget nnn, congrArg (· + 1) hk, ?pushed, fun j hj => ?others,
      push_changesOnly s _ _ _⟩
    case pushed => simp [hk]
    case others =>
      have hne : s.sp.val ≠ j.val := fun e => hj (Fin.ext (by omega))
      simp [hne]
  case full => exact faultsWith_of_faultOf (by simp [faultOf, hs])

/-- Settles O10: the cell the call pushed is the top one, and the return pops it. -/
theorem returnUndoesCall : Obligations.ReturnUndoesCall := by
  intro nnn u s t v hs h hstack hsp
  rw [execCall_room hs] at h
  cases h
  have hv : v.sp.val = s.sp.val + 1 := congrArg Fin.val hsp
  refine ⟨_, execRet_pos (by omega), ?_, Fin.ext ?_, rfl⟩
  · simp [hstack, hv]
  · exact Nat.sub_eq_of_eq_add hv

/-- `5XY0` is the conditional skip on equality, whatever the state. -/
theorem exec_seReg (x y u : Nibble) (s : State) :
    exec (.seReg x y u) s = .next (s.skipIf (s.getV x == s.getV y)) := rfl

/-- `9XY0` is the conditional skip on inequality, whatever the state. -/
theorem exec_sneReg (x y u : Nibble) (s : State) :
    exec (.sneReg x y u) s = .next (s.skipIf (s.getV x != s.getV y)) := rfl

/-- Settles O12: the mask leaves only the skip's dispatch row, and each skip is `skipIf` on its comparison. -/
theorem registerSkips : Obligations.RegisterSkips := by
  refine ⟨selects_seReg, selects_sneReg, fun x y u s => ⟨?seReg, ?sneReg⟩⟩
  case seReg => exact completes_of_exec_skipIf (exec_seReg x y u s) (by simp only [beq_iff_eq])
  case sneReg => exact completes_of_exec_skipIf (exec_sneReg x y u s) (by simp only [bne_iff_ne, ite_not])

/-- Settles O13: with a key code each is `skipIf` on the latch, and above 15 its fault condition holds. -/
theorem keySkips : Obligations.KeySkips := by
  refine ⟨selects_skp, selects_sknp, fun x s => ⟨fun hx => ⟨?skp, ?sknp⟩, fun hx => ⟨?skpFault, ?sknpFault⟩⟩⟩
  case skp => exact completes_of_exec_skipIf (execSkp_ok hx) rfl
  case sknp => exact completes_of_exec_skipIf (execSknp_ok hx) (by simp [State.keyDown, ← Bool.not_eq_true, ite_not])
  case skpFault => exact faultsWith_of_faultOf (by simp [faultOf, hx])
  case sknpFault => exact faultsWith_of_faultOf (by simp [faultOf, hx])

end Sys2Proof.Machine

/-! The arithmetic and logic instructions (43_alu.md). -/

namespace Sys2Proof.Machine

/-- `8XY1`, `8XY2` and `8XY3` are one register write each, whatever the state. -/
theorem exec_orReg (x y : Nibble) (s : State) :
    exec (.orReg x y) s = .next (s.setV x (s.getV x ||| s.getV y)) := rfl

theorem exec_andReg (x y : Nibble) (s : State) :
    exec (.andReg x y) s = .next (s.setV x (s.getV x &&& s.getV y)) := rfl

theorem exec_xorReg (x y : Nibble) (s : State) :
    exec (.xorReg x y) s = .next (s.setV x (s.getV x ^^^ s.getV y)) := rfl

/-- An instruction that is one register write completes with every bit of the written byte there. -/
theorem completes_of_exec_bits {i : Instr} {s : State} {x : Nibble} {b : Byte} {bit : Nat → Bool}
    (h : exec i s = .next (s.setV x b)) (hbit : ∀ k, b.getLsbD k = bit k) :
    ∃ t, exec i s = .next t ∧ (∀ k, (t.getV x).getLsbD k = bit k) ∧ s.ChangesOnly t [x] [] := by
  obtain ⟨t, ht, hb, hframe⟩ := completes_of_exec_setV h
  exact ⟨t, ht, fun k => by rw [hb, hbit], hframe⟩

/-- Settles O16: each instruction is one register write, and the bits of the written byte are those of the operation. -/
theorem bitwiseOperations : Obligations.BitwiseOperations := by
  refine ⟨selects_orReg, selects_andReg, selects_xorReg, fun x y s => ⟨?or, ?and, ?xor⟩⟩
  case or => exact completes_of_exec_bits (exec_orReg x y s) fun _ => BitVec.getLsbD_or
  case and => exact completes_of_exec_bits (exec_andReg x y s) fun _ => BitVec.getLsbD_and
  case xor => exact completes_of_exec_bits (exec_xorReg x y s) fun _ => BitVec.getLsbD_xor

/-- `8XY4`, `8XY5` and `8XY7` write VF and then `x[X]`, whatever the state. -/
theorem exec_addReg (x y : Nibble) (s : State) :
    exec (.addReg x y) s = .next (flagThenResult carryOut (fun a b => a + b) x y s) := rfl

theorem exec_sub (x y : Nibble) (s : State) :
    exec (.sub x y) s = .next (flagThenResult (fun a b => notBorrow a b) (fun a b => a - b) x y s) := rfl

theorem exec_subn (x y : Nibble) (s : State) :
    exec (.subn x y) s = .next (flagThenResult (fun a b => notBorrow b a) (fun a b => b - a) x y s) := rfl

/-- The four cases of `X` and `Y` being VF of an instruction that writes the flag first and then the result of the
registers as they then are (decision D11), as numbers: `op'` and `flag'` are what the operation and the flag come to. -/
theorem flagThenResult_values {flag : Byte → Byte → Bool} {op : Byte → Byte → Byte} {flag' op' : Nat → Nat → Nat}
    (hflag : ∀ a b : Byte, (flagByte (flag a b)).toNat = flag' a.toNat b.toNat)
    (hop : ∀ a b : Byte, (op a b).toNat = op' a.toNat b.toNat) (x y : Nibble) (s : State) :
    let t := flagThenResult flag op x y s
    let a := (s.getV x).toNat
    let b := (s.getV y).toNat
    let f := flag' a b
    (x ≠ regF → y ≠ regF → (t.getV x).toNat = op' a b ∧ (t.getV regF).toNat = f) ∧
    (x = regF → y ≠ regF → (t.getV regF).toNat = op' f b) ∧
    (x ≠ regF → y = regF → (t.getV x).toNat = op' a f ∧ (t.getV regF).toNat = f) ∧
    (x = regF → y = regF → (t.getV regF).toNat = op' f f) := by
  have hres := congrArg BitVec.toNat (getV_flagThenResult_x flag op x y s)
  have hVF (hx : x ≠ regF) := congrArg BitVec.toNat (getV_flagThenResult_flag flag op y s hx)
  rw [hop, apply_ite BitVec.toNat, apply_ite BitVec.toNat, hflag] at hres
  simp only [hflag] at hVF
  refine ⟨fun hx hy => ⟨?_, hVF hx⟩, fun hx hy => ?_, fun hx hy => ⟨?_, hVF hx⟩, fun hx hy => ?_⟩
  · rwa [if_neg hx, if_neg hy] at hres
  · rw [if_pos hx, if_neg hy] at hres
    exact hx ▸ hres
  · rwa [if_neg hx, if_pos hy] at hres
  · rw [if_pos hx, if_pos hy] at hres
    exact hx ▸ hres

theorem toNat_carry (a b : Byte) : (flagByte (carryOut a b)).toNat = if a.toNat + b.toNat > 255 then 1 else 0 := by
  simp [carryOut]

theorem toNat_notBorrow (a b : Byte) : (flagByte (notBorrow a b)).toNat = if b.toNat ≤ a.toNat then 1 else 0 := by
  simp [notBorrow]

theorem toNat_byte_sub (a b : Byte) : (a - b).toNat = (a.toNat + 256 - b.toNat) % 256 := by
  have := b.isLt
  rw [BitVec.toNat_sub]
  congr 1
  omega

/-- Settles O17: the carry is written first and the sum of the registers as they then are second. -/
theorem addRegSumAndCarry : Obligations.AddRegSumAndCarry := by
  refine ⟨selects_addReg, fun x y s => ⟨_, exec_addReg x y s, flagThenResult_changesOnly _ _ x y s, ?_⟩⟩
  obtain ⟨hneither, hX, hY, hboth⟩ := flagThenResult_values (op := fun a b => a + b)
    (flag' := fun a b => if a + b > 255 then 1 else 0) (op' := fun a b => (a + b) % 256)
    toNat_carry BitVec.toNat_add x y s
  refine ⟨hneither, hX, hY, fun hx hy => (hboth hx hy).trans ?_⟩
  split <;> rfl

/-- Settles O18: not-borrow is written first and the difference of the registers as they then are second. -/
theorem subDifferenceAndNotBorrow : Obligations.SubDifferenceAndNotBorrow := by
  refine ⟨selects_sub, fun x y s => ⟨_, exec_sub x y s, flagThenResult_changesOnly _ _ x y s, ?_⟩⟩
  obtain ⟨hneither, hX, hY, hboth⟩ := flagThenResult_values (op := fun a b => a - b)
    (flag' := fun a b => if b ≤ a then 1 else 0) (op' := fun a b => (a + 256 - b) % 256)
    toNat_notBorrow toNat_byte_sub x y s
  refine ⟨hneither, hX, hY, fun hx hy => (hboth hx hy).trans ?_⟩
  split <;> rfl

/-- Settles O19: the same with the operands of the flag and of the difference exchanged. -/
theorem subnReverseDifferenceAndNotBorrow : Obligations.SubnReverseDifferenceAndNotBorrow := by
  refine ⟨selects_subn, fun x y s => ⟨_, exec_subn x y s, flagThenResult_changesOnly _ _ x y s, ?_⟩⟩
  obtain ⟨hneither, hX, hY, hboth⟩ := flagThenResult_values (op := fun a b => b - a)
    (flag' := fun a b => if a ≤ b then 1 else 0) (op' := fun a b => (b + 256 - a) % 256)
    (fun a b => toNat_notBorrow b a) (fun a b => toNat_byte_sub b a) x y s
  refine ⟨hneither, hX, hY, fun hx hy => (hboth hx hy).trans ?_⟩
  split <;> rfl

/-- `8XY6` and `8XYE` write `x[X]` and then VF, whatever the state. -/
theorem exec_shr (x y : Nibble) (s : State) :
    exec (.shr x y) s = .next (resultThenFlag shiftedOutRight (fun v => v >>> 1) x y s) := rfl

theorem exec_shl (x y : Nibble) (s : State) :
    exec (.shl x y) s = .next (resultThenFlag shiftedOutLeft (fun v => v <<< 1) x y s) := rfl

theorem toNat_shiftedOutRight (v : Byte) : (flagByte (shiftedOutRight v)).toNat = v.toNat % 2 := by
  rw [toNat_flagByte, shiftedOutRight, BitVec.getLsbD, Nat.testBit_zero]
  split <;> simp_all

theorem toNat_shiftedOutLeft (v : Byte) : (flagByte (shiftedOutLeft v)).toNat = v.toNat / 128 := by
  have := v.isLt
  rw [toNat_flagByte, shiftedOutLeft, BitVec.getLsbD, Nat.testBit_eq_decide_div_mod_eq]
  split <;> simp_all <;> omega

/-- A shift completes; `m` and `f` are what the shifted operand and the bit that left come to. -/
theorem completes_of_exec_resultThenFlag {i : Instr} {s : State} {out : Byte → Bool} {op : Byte → Byte} {x y : Nibble}
    {m f : Nat} (h : exec i s = .next (resultThenFlag out op x y s)) (hm : (op (s.shiftOperand x y)).toNat = m)
    (hf : (flagByte (out (s.shiftOperand x y))).toNat = f) :
    ∃ t, exec i s = .next t ∧ s.ChangesOnly t [x, 0xF] [] ∧ (x ≠ 0xF → (t.getV x).toNat = m) ∧
      (t.getV 0xF).toNat = f :=
  ⟨_, h, resultThenFlag_changesOnly out op x y s,
    fun hx => (congrArg BitVec.toNat (getV_resultThenFlag_x out op y s hx)).trans hm,
    (congrArg BitVec.toNat (getV_resultThenFlag_flag out op x y s)).trans hf⟩

/-- Settles O20: the operand is sampled once, its half or double is written, and the bit that left last. -/
theorem shiftsByOne : Obligations.ShiftsByOne := by
  refine ⟨selects_shr, selects_shl, fun x y s => ⟨?shr, ?shl⟩⟩
  case shr =>
    refine completes_of_exec_resultThenFlag (exec_shr x y s) ?_ (toNat_shiftedOutRight _)
    rw [BitVec.toNat_ushiftRight, Nat.shiftRight_eq_div_pow]
    rfl
  case shl =>
    refine completes_of_exec_resultThenFlag (exec_shl x y s) ?_ (toNat_shiftedOutLeft _)
    rw [BitVec.toNat_shiftLeft, Nat.shiftLeft_eq, Nat.mul_comm]
    rfl

end Sys2Proof.Machine

/-! Offset jump, index addition, random byte, timers, key wait (44_index_jump_random.md, 47_timers_keywait.md,
48_index_memory.md). -/

namespace Sys2Proof.Machine

theorem exec_jpV0 (nnn : Imm12) (s : State) : exec (.jpV0 nnn) s = .next { s with pc := s.offsetTarget nnn } := rfl

theorem exec_addI (x : Nibble) (s : State) :
    exec (.addI x) s = .next { s with I := s.I + (s.getV x).setWidth 16 } := rfl

theorem exec_rnd (x : Nibble) (nn : Byte) (s : State) :
    exec (.rnd x nn) s = .next (s.setV x (s.env.rnd &&& nn)) := rfl

/-- Settles O22: each is one write, of `pc` or of `I`; the 16-bit sum of the first does not wrap, that of the second is
the sum modulo 65536. -/
theorem offsetJumpAndIndexAdd : Obligations.OffsetJumpAndIndexAdd := by
  refine ⟨selects_jpV0, selects_addI, fun nnn x s => ⟨?jpV0, ?addI⟩⟩
  case jpV0 => exact ⟨_, exec_jpV0 nnn s, toNat_offsetTarget s nnn, pc_changesOnly s _⟩
  case addI =>
    refine completes_of_exec_index (exec_addI x s) ?_
    rw [BitVec.toNat_add, BitVec.toNat_setWidth_of_le (by decide)]

/-- Settles O23: the instruction is one register write of the masked byte. -/
theorem randomByteIsMasked : Obligations.RandomByteIsMasked :=
  ⟨selects_rnd, fun x nn s => completes_of_exec_setV (exec_rnd x nn s)⟩

/-- Settles O27: each instruction is one write of its timer. -/
theorem timersAreSet : Obligations.TimersAreSet :=
  ⟨selects_ldDtVx, selects_ldStVx, fun _ s =>
    ⟨⟨_, rfl, rfl, delayTimer_changesOnly s _⟩, ⟨_, rfl, rfl, soundTimer_changesOnly s _⟩⟩⟩

/-- Settles O28: with every key up `keySelect` answers nothing, and else a key that is down: the table's, or the
lowest; and every choice of R6 has a table. -/
theorem keyWaitStoresTheSelectedKey : Obligations.KeyWaitStoresTheSelectedKey := by
  refine ⟨selects_ldVxK, fun x s => ⟨fun hup => ?wait, fun k hk hdown => ?store⟩, fun f hf => ?tables⟩
  case wait => exact execLdVxK_none (keySelect_none.mpr hup)
  case store =>
    obtain ⟨n, hn⟩ : ∃ n, s.keySelect = some n := by
      refine Option.ne_none_iff_exists'.mp fun hnone => ?_
      exact absurd hdown (by simpa [State.keyDown] using keySelect_none.mp hnone k hk)
    have hval : ((s.setV x (n.setWidth 8)).getV x).toNat = n.toNat := by
      rw [getV_setV_self, BitVec.toNat_setWidth_of_le (by decide)]
    refine ⟨_, execLdVxK_some hn, ?_⟩
    rw [hval]
    refine ⟨n.isLt, keySelect_some hn, fun hdefault => ?lowest, fun c hc hcdown => ?listed, setV_changesOnly s x _⟩
    case lowest => exact (lowestKey_some (keySelect_default hdefault ▸ hn)).2
    case listed => cases (keySelect_listed hc hcdown).symm.trans hn; rfl
  case tables =>
    obtain ⟨table, htable⟩ := exists_keyTable f hf
    exact ⟨table, fun x s hs hkeys => execLdVxK_some (htable s hs hkeys)⟩

end Sys2Proof.Machine

/-! Drawing (45_draw.md). -/

namespace Sys2Proof.Machine

/-- The start column and row as remainders (R180). -/
theorem spriteColumn_eq (s : State) (x : Nibble) : s.spriteColumn x = (s.getV x).toNat % 64 :=
  (BitVec.toNat_and _ _).trans (Nat.and_two_pow_sub_one_eq_mod _ 6)

theorem spriteRow_eq (s : State) (y : Nibble) : s.spriteRow y = (s.getV y).toNat % 32 :=
  (BitVec.toNat_and _ _).trans (Nat.and_two_pow_sub_one_eq_mod _ 5)

/-- The cells the model's loop covers are those the claims name, inside the grid (R180, R181). -/
theorem rowsCover_iff_spriteCovers (s : State) (x y : Nibble) (n c r : Nat) :
    RowsCover (s.spriteColumn x) (s.spriteRow y) (Memory.readSpan s.config.font s.mem s.I.toNat n) c r ↔
      c < 64 ∧ r < 32 ∧ s.SpriteCovers x y n c r := by
  rw [spriteColumn_eq, spriteRow_eq]
  unfold RowsCover State.SpriteCovers
  simp only [length_readSpan, spritePixel]
  constructor
  · rintro ⟨hr, hc, hxs, hxe, hys, hye, hbit⟩
    rw [getD_readSpan _ _ _ _ (by omega)] at hbit
    exact ⟨by omega, by omega, hxs, hxe, hys, hye, hbit⟩
  · rintro ⟨hc, hr, hxs, hxe, hys, hye, hbit⟩
    refine ⟨by omega, by omega, hxs, hxe, hys, hye, ?_⟩
    rwa [getD_readSpan _ _ _ _ (by omega)]

/-- What the draw of a sprite read at `I` does to the display, VF and `draw_dirty` (R180). -/
theorem drawSprite_effect (s : State) (x y : Nibble) (n : Nat) :
    let t := s.drawSprite x y (Memory.readSpan s.config.font s.mem s.I.toNat n)
    (∀ c r, t.cell c r = true ↔ ¬ (s.cell c r = true ↔ c < 64 ∧ r < 32 ∧ s.SpriteCovers x y n c r)) ∧
    (t.getV regF = 0 ∨ t.getV regF = 1) ∧
    (t.getV regF = 1 ↔ ∃ c r, c < 64 ∧ r < 32 ∧ s.cell c r = true ∧ s.SpriteCovers x y n c r) ∧
    (t.drawDirty = true ↔ s.drawDirty = true ∨ ∃ c r, c < 64 ∧ r < 32 ∧ s.SpriteCovers x y n c r) := by
  obtain ⟨hcells, hcoll, hchanged⟩ := (drawRows_toggles (s.spriteColumn x) (s.spriteRow y)
    (Memory.readSpan s.config.font s.mem s.I.toNat n) { disp := s.disp, coll := false, changed := false }).congr
    (rowsCover_iff_spriteCovers s x y n)
  have hVF : (s.drawSprite x y (Memory.readSpan s.config.font s.mem s.I.toNat n)).getV regF =
      flagByte (drawRows (s.spriteColumn x) (s.spriteRow y) (Memory.readSpan s.config.font s.mem s.I.toNat n)
        { disp := s.disp, coll := false, changed := false }).coll := getV_setV_self s regF _
  refine ⟨hcells, ?_, ?_, ?_⟩
  · rw [hVF]
    cases Canvas.coll _ <;> simp [flagByte]
  · rw [hVF, flagByte_eq_one, hcoll]
    simp [State.cell, and_comm, and_left_comm]
  · simp [State.drawSprite, hchanged]

/-- Settles O24: in range the instruction is the draw, and out of range its fault condition holds. -/
theorem drawIsClippedExclusiveOr : Obligations.DrawIsClippedExclusiveOr := by
  refine ⟨selects_drw, fun x y n s => ⟨fun hrange => ?draws, fun hn hI => ?faults⟩⟩
  case draws =>
    obtain ⟨hcells, hbit, hVF, hdirty⟩ := drawSprite_effect s x y n.toNat
    refine ⟨_, execDrw_ok hrange, drawSprite_changesOnly s x y _, fun c r hc hr => ?_, hbit, hVF, hdirty⟩
    rw [hcells, and_iff_right hc, and_iff_right hr]
  case faults => exact faultsWith_of_faultOf (by simp only [faultOf]; rw [if_pos ⟨hn, hI⟩])

/-- A sprite covers what its coordinates, `I` and bytes say. -/
theorem spriteCovers_congr {s u : State} {x y : Nibble} (hI : u.I = s.I) (hx : u.getV x = s.getV x)
    (hy : u.getV y = s.getV y) (hbytes : ∀ a, u.readByte a = s.readByte a) (n c r : Nat) :
    u.SpriteCovers x y n c r ↔ s.SpriteCovers x y n c r := by
  simp only [State.SpriteCovers, hI, hx, hy, hbytes]

/-- A draw that did not fault is the draw. -/
theorem drawSprite_of_exec {x y n : Nibble} {s t : State} (h : exec (.drw x y n) s = .next t)
    (hf : faultOf (.drw x y n) s = none) :
    t = s.drawSprite x y (Memory.readSpan s.config.font s.mem s.I.toNat n.toNat) := by
  cases (execDrw_ok (sprite_range_of_no_fault hf)).symm.trans h
  rfl

/-- Settles O25: the second exclusive or with the same cells undoes the first, and a covered cell is lit before the
second draw exactly when it was unlit before the first. -/
theorem drawingTwiceErases : Obligations.DrawingTwiceErases := by
  intro x y n s t u v hrun ht htrun hdisp hI hx hy hbytes hv
  have hfs : faultOf (.drw x y n) s = none := by
    obtain ⟨k, -, rfl⟩ | ⟨hf, -⟩ := exec_cases ht
    · cases htrun
    · exact hf
  have hfu : faultOf (.drw x y n) u = none := by
    rw [← hfs]
    simp only [faultOf, hI]
  have hcell : ∀ c r, u.cell c r = t.cell c r := cell_congr hdisp
  have hcovers := spriteCovers_congr hI hx hy hbytes n.toNat
  obtain ⟨hcells₁, -⟩ := drawSprite_effect s x y n.toNat
  obtain ⟨hcells₂, -, hVF₂, -⟩ := drawSprite_effect u x y n.toNat
  rw [← drawSprite_of_exec ht hfs] at hcells₁
  rw [← drawSprite_of_exec hv hfu] at hcells₂ hVF₂
  simp only [hcell, hcells₁, hcovers] at hcells₂ hVF₂
  refine ⟨fun c r hc hr => ?_, hVF₂.trans ?_⟩
  · rw [Bool.eq_iff_iff, hcells₂]
    tauto
  · refine exists_congr fun c => exists_congr fun r => ?_
    rw [← Bool.not_eq_true]
    tauto

end Sys2Proof.Machine

/-! Stores and loads of the index register's span (48_index_memory.md R212 to R214, 20_memory.md R77). -/

namespace Sys2Proof.Machine

/-- The three digits as numbers: each fits a byte (R212). -/
theorem toNat_bcdDigits (v : Byte) (k : Nat) (hk : k < (bcdDigits v).length) :
    ((bcdDigits v)[k]).toNat = [v.toNat / 100, v.toNat / 10 % 10, v.toNat % 10][k] := by
  have := v.isLt
  match k, hk with
  | 0, _ => exact (BitVec.toNat_ofNat _ _).trans (Nat.mod_eq_of_lt (show v.toNat / 100 < 256 by omega))
  | 1, _ => exact (BitVec.toNat_ofNat _ _).trans (Nat.mod_eq_of_lt (show v.toNat / 10 % 10 < 256 by omega))
  | 2, _ => exact (BitVec.toNat_ofNat _ _).trans (Nat.mod_eq_of_lt (show v.toNat % 10 < 256 by omega))

/-- Settles O29: in range the instruction is the store of the three digits, and out of range one of its two fault
conditions holds. -/
theorem bcdIsStored : Obligations.BcdIsStored := by
  refine ⟨selects_ldB, fun x s => ⟨fun hlo hhi => ?stores, fun hI => ?range, fun hI => ?protect⟩⟩
  case stores =>
    refine ⟨_, execLdB_ok hlo hhi, fun hcanon => ?digits, fun a ha => ?others, memory_changesOnly s _⟩
    case digits =>
      have hdigit (k : Nat) (hk : k < 3) := (congrArg BitVec.toNat (read_writeSpan_inside (font := s.config.font)
        (bcdDigits (s.getV x)) s.I.toNat k hcanon.1 hk)).trans (toNat_bcdDigits (s.getV x) k hk)
      exact ⟨hdigit 0 (by decide), hdigit 1 (by decide), hdigit 2 (by decide)⟩
    case others =>
      refine read_writeSpan_outside _ _ _ _ ?_
      rw [length_bcdDigits]
      exact ha.imp id fun h => h
  case range => exact faultsWith_of_faultOf (by simp only [faultOf]; exact if_pos hI)
  case protect => exact faultsWith_of_faultOf (faultOf_eq_storeProtect.mpr ⟨⟨x, .inl rfl⟩, hI⟩)

/-- `I` after a store or load of registers up to `X` in range: its advance does not wrap (R213, R214). `t` is the state
the advance starts from. -/
theorem advanceIndex_index {s t : State} {x : Nibble} (hI : t.I = s.I) (hc : t.config = s.config)
    (h : s.I.toNat + x.toNat ≤ 0xFFF) :
    (s.config.quirkIndex = false → (t.advanceIndex x).I = s.I) ∧
    (s.config.quirkIndex = true → (t.advanceIndex x).I.toNat = s.I.toNat + x.toNat + 1) := by
  rw [State.advanceIndex_I, hI, hc]
  refine ⟨fun hq => if_neg (by simp [hq]), fun hq => ?_⟩
  rw [if_pos hq, BitVec.toNat_add, BitVec.toNat_ofNat]
  omega

/-! What `FX55` leaves when its span is in range (R213). -/

section
variable {x : Nibble} {s t : State} (hlo : 0x200 ≤ s.I.toNat) (hhi : s.I.toNat + x.toNat ≤ 0xFFF)
  (h : exec (.stRegs x) s = .next t)
include hlo hhi h

theorem execStRegs_result : t.pc = s.pc ∧ t.config = s.config ∧
    t.mem = Memory.writeSpan s.config.font s.mem s.I.toNat (s.registersTo x) := by
  rw [execStRegs_ok hlo hhi] at h
  cases h
  simp

/-- A stored byte reads back as the register. -/
theorem execStRegs_stored (hcanon : s.MemoryCanonical) {k : Nibble} (hk : k.toNat ≤ x.toNat) :
    t.readByte (s.I.toNat + k.toNat) = s.getV k := by
  obtain ⟨-, hc, hm⟩ := execStRegs_result hlo hhi h
  have hlen : k.toNat < (s.registersTo x).length := by rw [length_registersTo]; omega
  rw [State.readByte, hm, hc, read_writeSpan_inside _ _ _ hcanon.1 hlen, getElem_registersTo]

theorem execStRegs_others {a : Nat} (ha : a < s.I.toNat ∨ s.I.toNat + x.toNat < a) : t.readByte a = s.readByte a := by
  obtain ⟨-, hc, hm⟩ := execStRegs_result hlo hhi h
  rw [State.readByte, hm, hc]
  exact read_writeSpan_outside _ _ _ _ (by rw [length_registersTo]; omega)

end

/-- The frame of `FX55` and `FX65` as the claims give it, which name `I` under either quirk. -/
theorem indexParts_subset (c : Config) : indexParts c ⊆ [.index] := by
  unfold indexParts
  split <;> simp

/-- Settles O30: in range the instruction is the store of the registers and the advance of `I`, and out of range one of
its two fault conditions holds. -/
theorem registersAreStored : Obligations.RegistersAreStored := by
  refine ⟨selects_stRegs, fun x s => ⟨fun hlo hhi => ?stores, fun hI => ?range, fun hI => ?protect⟩⟩
  case stores =>
    have h := execStRegs_ok hlo hhi
    obtain ⟨hkeep, hmove⟩ := advanceIndex_index (t := { s with
      mem := Memory.writeSpan s.config.font s.mem s.I.toNat (s.registersTo x) }) rfl rfl hhi
    have hframe := (memory_changesOnly s
      (Memory.writeSpan s.config.font s.mem s.I.toNat (s.registersTo x))).advanceIndex x
    exact ⟨_, h, fun hcanon k hk => execStRegs_stored hlo hhi h hcanon hk,
      fun a ha => execStRegs_others hlo hhi h ha, hkeep, hmove,
      hframe.mono (List.Subset.refl _) (List.cons_subset_cons _ (indexParts_subset _))⟩
  case range => exact faultsWith_of_faultOf (faultOf_eq_memRange.mpr (.inr (.inr ⟨x, .inl rfl, hI⟩)))
  case protect => exact faultsWith_of_faultOf (faultOf_eq_storeProtect.mpr ⟨⟨x, .inr rfl⟩, hI⟩)

/-- A register `FX65` names is loaded with its byte (R214). -/
theorem getV_loadSpan {x k : Nibble} (s : State) (hk : k.toNat ≤ x.toNat) :
    ((s.loadRegisters (Memory.readSpan s.config.font s.mem s.I.toNat (x.toNat + 1))).advanceIndex x).getV k =
      s.readByte (s.I.toNat + k.toNat) := by
  rw [getV_congr (State.advanceIndex_V _ x), getV_loadRegisters, getD_readSpan _ _ _ _ (by omega)]
  rfl

/-- Settles O31: in range the instruction is the load of the registers and the advance of `I`, and out of range its
fault condition holds. -/
theorem registersAreLoaded : Obligations.RegistersAreLoaded := by
  refine ⟨selects_ldRegs, fun x s => ⟨fun hhi => ?loads, fun hI => ?range⟩⟩
  case loads =>
    obtain ⟨hkeep, hmove⟩ := advanceIndex_index (State.loadRegisters_I s
      (Memory.readSpan s.config.font s.mem s.I.toNat (x.toNat + 1))) (State.loadRegisters_config s _) hhi
    have hframe := (loadRegisters_changesOnly s x (length_readSpan s.config.font s.mem s.I.toNat _)).advanceIndex x
    refine ⟨_, execLdRegs_ok hhi, fun k hk => getV_loadSpan s hk, fun k hk => ?_, hkeep, hmove,
      hframe.mono (List.Subset.refl _) (indexParts_subset _)⟩
    exact hframe.V k fun hmem => absurd (mem_regsTo.mp hmem) (by omega)
  case range => exact faultsWith_of_faultOf (faultOf_eq_memRange.mpr (.inr (.inr ⟨x, .inr rfl, hI⟩)))

/-- Settles O32: the load reads the bytes the store left, which read back as the registers. -/
theorem storeThenLoadRestoresRegisters : Obligations.StoreThenLoadRestoresRegisters := by
  intro x s t u hcanon hlo hhi h hmem hconfig hI
  have hhi' : u.I.toNat + x.toNat ≤ 0xFFF := hI ▸ hhi
  refine ⟨_, execLdRegs_ok hhi', fun k hk => (getV_loadSpan u hk).trans ?_⟩
  rw [readByte_congr hmem hconfig, hI]
  exact execStRegs_stored hlo hhi h hcanon hk

/-- Settles O33: the store did not fault, so the two bytes at `pc` read back as the registers stored there. -/
theorem storedBytesAreFetchedNext : Obligations.StoredBytesAreFetchedNext := by
  intro x k s t hcanon hrun h htrun hk hpc
  obtain ⟨j, -, rfl⟩ | ⟨hf, -⟩ := exec_cases h
  · cases htrun
  obtain ⟨hlo, hhi⟩ := store_range_of_no_fault hf
  have hk1 : (k + 1).toNat = k.toNat + 1 := by
    have := nibble_lt x
    have h1 : (1 : Nibble).toNat = 1 := rfl
    rw [BitVec.toNat_add, h1]
    omega
  have hpc' : t.pc.toNat = s.I.toNat + k.toNat := (congrArg BitVec.toNat (execStRegs_result hlo hhi h).1).trans hpc
  have hhigh : t.readByte t.pc.toNat = s.getV k := hpc' ▸ execStRegs_stored hlo hhi h hcanon (by omega)
  have hlow : t.readByte (t.pc.toNat + 1) = s.getV (k + 1) := by
    rw [hpc', Nat.add_assoc, ← hk1]
    exact execStRegs_stored hlo hhi h hcanon (by omega)
  rw [fetch_ok (by omega), hhigh, hlow]
  rfl

end Sys2Proof.Machine

/-! The Tick cycle and the events (30_encoding.md R105, 60_exceptions.md R231 to R247, 70_reset_and_hazards.md R270 to
R275). -/

namespace Sys2Proof.Machine

/-- Settles O43: either way the step is a Tick, in a state that differs from `s` in its environment only. -/
theorem stepRunsTheDecodedInstruction : Obligations.StepRunsTheDecodedInstruction := by
  intro s i hrun hloaded hpc hdecode
  refine ⟨fun rnd rest ha => ?_, fun ha => ?_⟩
  · exact (step_eq_perform ha).trans (tick_ok (s := { s with env := { s.env with agenda := rest } }) rnd hrun hloaded
      hpc hdecode)
  · exact (step_eq_tick ha).trans (tick_ok (s := { s with env := { s.env with draws := s.env.draws + 1 } }) _ hrun
      hloaded hpc hdecode)

/-- A Tick whose fetch is out of range enters the range fault, with no opcode (R234). -/
theorem tick_fetchFault {s : State} (rnd : Byte) (hrun : s.run = .running) (hloaded : s.loadOpen = false)
    (hpc : 0xFFE < s.pc.toNat) : s.tick rnd = .next ((s.openTick rnd).enterFault .memRange s.pc none) := by
  have hfetch : (s.openTick rnd).fetch = .error .memRange := fetch_error hpc
  simp only [State.tick, hrun, hloaded, State.fetchAndExecute, hfetch, State.openTick_pc]

/-- Settles O44: the step is a Tick, and each condition is that of one of its two faults before execution. -/
theorem fetchAndDispatchFaults : Obligations.FetchAndDispatchFaults := by
  intro s rnd rest hrun hloaded ha
  refine ⟨fun hpc => ?_, fun e hpc hdecode => ?_⟩
  · exact (step_eq_perform ha).trans (tick_fetchFault (s := { s with env := { s.env with agenda := rest } }) rnd hrun
      hloaded hpc)
  · exact (step_eq_perform ha).trans (tick_unknown (s := { s with env := { s.env with agenda := rest } }) rnd hrun
      hloaded hpc hdecode)

/-- A Tick of a running, loaded machine answers a next state, and keeps the load gate and the schedule. -/
theorem tick_next {s : State} (rnd : Byte) (hrun : s.run = .running) (hloaded : s.loadOpen = false) :
    ∃ t, s.tick rnd = .next t ∧ t.loadOpen = s.loadOpen ∧ t.env.agenda = s.env.agenda := by
  by_cases hpc : s.pc.toNat ≤ 0xFFE
  · cases hd : decode (opcodeOfBytes (s.readByte s.pc.toNat) (s.readByte (s.pc.toNat + 1))) with
    | error e => exact ⟨_, tick_unknown rnd hrun hloaded hpc hd, rfl, rfl⟩
    | ok i =>
      obtain ⟨t, ht⟩ := everyInstructionHasANextState i (s.openTick rnd).advancePc
      obtain ⟨-, -, henv, hopen, -⟩ := instructionsOnlyReadInputs _ _ _ ht
      exact ⟨t, (tick_ok rnd hrun hloaded hpc hd).trans ht, hopen, by rw [henv]; rfl⟩
  · exact ⟨_, tick_fetchFault rnd hrun hloaded (by omega), rfl, rfl⟩

/-! `LoadROM` by its three outcomes (R273). -/

theorem loadRom_tooLate {s : State} {rom : List Byte} (h : s.loadOpen = false) :
    s.loadRom rom = .refused .loadTooLate := by
  rw [State.loadRom, if_pos h]

theorem loadRom_tooLarge {s : State} {rom : List Byte} (h : s.loadOpen = true) (hlen : 3584 < rom.length) :
    s.loadRom rom = .refused (.romTooLarge rom.length) := by
  rw [State.loadRom, if_neg (by simp [h]), if_pos hlen]

theorem loadRom_ok {s : State} {rom : List Byte} (h : s.loadOpen = true) (hlen : rom.length ≤ 3584) :
    s.loadRom rom = .next { s with mem := Memory.writeSpan s.config.font s.mem 0x200 rom, loadOpen := false } := by
  rw [State.loadRom, if_neg (by simp [h]), if_neg (by omega)]

/-- A Tick in the required order, from a state with the schedule `rest` ahead of it: it goes on in that order, or is
the halted stop. -/
theorem tick_followsRequiredOrder {s : State} (rnd : Byte) (hloaded : s.loadOpen = false)
    (h : requiredOrder false s.env.agenda = true) :
    (∃ t, s.tick rnd = .next t ∧ t.FollowsRequiredOrder) ∨
      ∃ r, s.run = .faulted r ∧ s.tick rnd = .fault (.halted r) := by
  cases hrun : s.run with
  | faulted r => exact .inr ⟨r, rfl, tick_halted rnd hrun⟩
  | running =>
    obtain ⟨t, ht, hopen, ha⟩ := tick_next rnd hrun hloaded
    refine .inl ⟨t, ht, ?_⟩
    unfold State.FollowsRequiredOrder
    rwa [hopen, ha, hloaded]

/-- Settles O45: by the event at the head of the schedule, whose place in the required order says how the load gate
stands. -/
theorem requiredOrderIsNeverRefused : Obligations.RequiredOrderIsNeverRefused := by
  refine ⟨fun s h => ?order, fun s hrun hopen ha => ?notLoaded⟩
  case notLoaded =>
    obtain ha | ⟨rnd, rest, ha⟩ := ha
    · exact (step_eq_tick ha).trans (tick_notLoaded _ hrun hopen)
    · exact (step_eq_perform ha).trans (tick_notLoaded rnd hrun hopen)
  case order =>
    unfold State.FollowsRequiredOrder at h
    cases ha : s.env.agenda with
    | nil =>
      rw [ha] at h
      have hloaded : s.loadOpen = false := by simpa [requiredOrder] using h
      rw [step_eq_tick ha]
      exact (tick_followsRequiredOrder (s := { s with env := { s.env with draws := s.env.draws + 1 } }) _ hloaded
        (by simp [ha, requiredOrder])).imp id .inl
    | cons e rest =>
      rw [ha] at h
      rw [step_eq_perform ha]
      cases e with
      | tick rnd =>
        obtain ⟨hloaded, hrest⟩ : s.loadOpen = false ∧ requiredOrder s.loadOpen rest = true := by
          simpa [requiredOrder] using h
        exact (tick_followsRequiredOrder (s := { s with env := { s.env with agenda := rest } }) rnd hloaded
          (hloaded ▸ hrest)).imp id .inl
      | timerStep => exact .inl ⟨_, rfl, (Bool.and_eq_true_iff.mp h).2⟩
      | setKeys k => exact .inl ⟨_, rfl, (Bool.and_eq_true_iff.mp h).2⟩
      | renderAck => exact .inl ⟨_, rfl, (Bool.and_eq_true_iff.mp h).2⟩
      | reset => exact .inl ⟨_, rfl, h⟩
      | loadRom rom =>
        obtain ⟨hopen, hrest⟩ : s.loadOpen = true ∧ requiredOrder false rest = true := by
          simpa [requiredOrder] using h
        by_cases hlen : 3584 < rom.length
        · exact .inr (.inr ⟨rom, rest, rfl, hlen, loadRom_tooLarge hopen hlen⟩)
        · exact .inl ⟨_, loadRom_ok hopen (by omega), hrest⟩
      | skipFault => cases h

/-- Settles O46: a Tick of a faulted machine is the halted stop, so a step that answers a next state is another event;
`LoadROM` is closed and the skip move is not enabled, and the rest touch none of this. -/
theorem onlyResetLeavesAFault : Obligations.OnlyResetLeavesAFault := by
  refine fun s r hr => ⟨fun ha => ?halted, fun t hpolicy hloaded h => ?others⟩
  case halted =>
    obtain ha | ⟨rnd, rest, ha⟩ := ha
    · exact (step_eq_tick ha).trans (tick_halted _ hr)
    · exact (step_eq_perform ha).trans (tick_halted rnd hr)
  case others =>
    obtain ⟨env, ⟨rnd, h⟩ | rfl | ⟨k, rfl⟩ | rfl | ⟨hreset, -⟩ | ⟨rom, h⟩ | h⟩ := step_cases h
    · cases hr.symm.trans (tick_cases h).1
    · exact .inr ⟨hr, rfl, rfl, rfl, rfl, rfl, rfl, rfl, rfl⟩
    · exact .inr ⟨hr, rfl, rfl, rfl, rfl, rfl, rfl, rfl, rfl⟩
    · exact .inr ⟨hr, rfl, rfl, rfl, rfl, rfl, rfl, rfl, rfl⟩
    · exact .inl hreset
    · cases hloaded.symm.trans (loadRom_cases h).1
    · cases hpolicy.symm.trans (skipFault_cases h).1

/-- Settles O49: the step is `Reset`, whose result is the boot state of the same configuration and schedule. -/
theorem resetPutsEveryValue : Obligations.ResetPutsEveryValue := by
  intro s rest ha
  refine ⟨_, step_eq_perform ha, read_nil s.config.font, rfl, rfl, rfl, rfl, fun n => ?_, rfl, cellAt_unlit, rfl, rfl,
    rfl, rfl, rfl⟩
  exact Vector.getElem_replicate _

/-- Settles O50: the step is `LoadROM`, by its three outcomes. -/
theorem loadRomCopiesTheImage : Obligations.LoadRomCopiesTheImage := by
  intro s rom rest ha
  rw [step_eq_perform ha]
  refine ⟨fun hclosed => loadRom_tooLate hclosed, fun hopen hlen => loadRom_tooLarge hopen hlen,
    fun hopen hlen => ⟨_, loadRom_ok hopen hlen, fun hcanon k => ?image, fun a hout => ?others, rfl, ?frame⟩⟩
  case image => exact read_writeSpan_inside rom 0x200 k.val hcanon.1 k.isLt
  case others => exact read_writeSpan_outside _ _ _ _ hout
  case frame =>
    simp only [← hopen]

/-- Settles O51: by induction on the number of `TimerStep`s, each one count down of both timers. -/
theorem timersReachZeroAndStay : Obligations.TimersReachZeroAndStay := by
  intro j
  induction j with
  | zero => exact fun s rest ha => ⟨s, rfl, rfl, rfl, ha, rfl⟩
  | succ j ih =>
    intro s rest ha
    obtain ⟨t, ht, hDT, hST, hrest, hrun⟩ := ih
      (State.timerStep { s with env := { s.env with agenda := List.replicate j .timerStep ++ rest } }) rest rfl
    refine ⟨t, (core_run_succ j (step_of_timerStep ha)).trans ht, ?_, ?_, hrest, hrun⟩
    · rw [hDT, State.timerStep_DT, toNat_countDown, Nat.sub_sub, Nat.add_comm]
    · rw [hST, State.timerStep_ST, toNat_countDown, Nat.sub_sub, Nat.add_comm]

/-- A timer that is greater after a Tick was written by its instruction, the one decoded at `pc`. -/
theorem tick_timers {s t : State} {rnd : Byte} (h : s.tick rnd = .next t) :
    (t.DT ≠ s.DT → ∃ x, decode (opcodeOfBytes (s.readByte s.pc.toNat) (s.readByte (s.pc.toNat + 1))) =
      .ok (.ldDtVx x) ∧ t.DT = s.getV x) ∧
    (t.ST ≠ s.ST → ∃ x, decode (opcodeOfBytes (s.readByte s.pc.toNat) (s.readByte (s.pc.toNat + 1))) =
      .ok (.ldStVx x) ∧ t.ST = s.getV x) := by
  obtain ⟨-, -, ⟨-, rfl⟩ | ⟨hpc, w, hw, ⟨e, -, rfl⟩ | ⟨i, hi, h⟩⟩⟩ := tick_cases h
  · exact ⟨absurd rfl, absurd rfl⟩
  · exact ⟨absurd rfl, absurd rfl⟩
  · cases (fetch_ok (s := s.openTick rnd) hpc).symm.trans hw
    obtain ⟨-, -, hDT, hST, -⟩ := exec_changed h
    refine ⟨fun hne => ?_, fun hne => ?_⟩
    · obtain ⟨x, rfl⟩ := delayTimer_mem_writtenParts (hDT hne)
      exact ⟨x, hi, by cases h; rfl⟩
    · obtain ⟨x, rfl⟩ := soundTimer_mem_writtenParts (hST hne)
      exact ⟨x, hi, by cases h; rfl⟩

/-- Settles O52: of the other events only the timer driver and `Reset` write the timers, and they count down or
clear. -/
theorem timersGrowOnlyByTheirWrites : Obligations.TimersGrowOnlyByTheirWrites := by
  intro s t h
  have hne {a b : Byte} (hlt : a.toNat < b.toNat) : b ≠ a := fun e => absurd hlt (by simp [e])
  suffices hgrow : (∃ env rnd, State.tick { s with env := env } rnd = .next t) ∨
      (t.DT.toNat ≤ s.DT.toNat ∧ t.ST.toNat ≤ s.ST.toNat) by
    obtain ⟨env, rnd, h⟩ | ⟨hDT, hST⟩ := hgrow
    · obtain ⟨hDT, hST⟩ := tick_timers h
      exact ⟨fun hlt => hDT (hne hlt), fun hlt => hST (hne hlt)⟩
    · exact ⟨fun hlt => absurd hlt (by omega), fun hlt => absurd hlt (by omega)⟩
  obtain ⟨env, ⟨rnd, h⟩ | rfl | ⟨k, rfl⟩ | rfl | ⟨-, rfl⟩ | ⟨rom, h⟩ | h⟩ := step_cases h
  · exact .inl ⟨env, rnd, h⟩
  · simp only [State.timerStep_DT, State.timerStep_ST, toNat_countDown]
    exact .inr ⟨Nat.sub_le _ _, Nat.sub_le _ _⟩
  · exact .inr ⟨le_rfl, le_rfl⟩
  · exact .inr ⟨le_rfl, le_rfl⟩
  · exact .inr ⟨Nat.zero_le _, Nat.zero_le _⟩
  · obtain ⟨-, -, rfl⟩ := loadRom_cases h
    exact .inr ⟨le_rfl, le_rfl⟩
  · obtain ⟨-, r, -, -, rfl⟩ := skipFault_cases h
    exact .inr ⟨le_rfl, le_rfl⟩

/-! The end of a run (R275). -/

/-- The self-jump: a Tick decodes the jump and goes back to the same `pc`, whatever the random byte. -/
theorem tick_of_endOfRun {s : State} (rnd : Byte) (h : s.EndOfRun) (hloaded : s.loadOpen = false) :
    s.tick rnd = .next (s.openTick rnd) := by
  obtain ⟨hrun, nnn, hpc, hfetch⟩ := h
  have hlow : s.pc.toNat ≤ 0xFFE := by
    by_contra hhigh
    cases (fetch_error (by omega)).symm.trans hfetch
  have hword := Except.ok.inj ((fetch_ok hlow).symm.trans hfetch)
  rw [tick_ok rnd hrun hloaded hlow (hword ▸ decode_encode (.jp nnn)), exec_jp, ← hpc]
  rfl

/-- A step at the end of a run with only Ticks ahead changes nothing but the environment, which has only Ticks ahead
again. -/
theorem step_of_endOfRun {s : State} (h : s.EndOfRun) (hloaded : s.loadOpen = false)
    (hticks : ∀ e ∈ s.env.agenda, ∃ rnd, e = .tick rnd) :
    ∃ env : Environment, step s = .next { s with env := env } ∧ ∀ e ∈ env.agenda, ∃ rnd, e = .tick rnd := by
  cases ha : s.env.agenda with
  | nil =>
    refine ⟨_, (step_eq_tick ha).trans (tick_of_endOfRun _ (endOfRun_congr h rfl rfl rfl rfl) hloaded), ?_⟩
    simp [ha]
  | cons e rest =>
    rw [ha] at hticks
    obtain ⟨rnd, rfl⟩ := hticks e List.mem_cons_self
    exact ⟨_, (step_eq_perform ha).trans (tick_of_endOfRun rnd (endOfRun_congr h rfl rfl rfl rfl) hloaded),
      fun e he => hticks e (List.mem_cons_of_mem _ he)⟩

/-- A run of any length from there is safe, is at its end again and leaves the machine as it was. -/
theorem run_of_endOfRun (n : Nat) : ∀ {s : State}, s.EndOfRun → s.loadOpen = false →
    (∀ e ∈ s.env.agenda, ∃ rnd, e = .tick rnd) →
    SafeFor n s ∧ ∃ env : Environment, Sys2Proof.core.run n s = .next { s with env := env } := by
  induction n with
  | zero => exact fun {s} h _ _ => ⟨h.running, s.env, rfl⟩
  | succ n ih =>
    intro s h hloaded hticks
    obtain ⟨env, hstep, hticks'⟩ := step_of_endOfRun h hloaded hticks
    obtain ⟨hsafe, env', hrun⟩ := ih (s := { s with env := env }) (endOfRun_congr h rfl rfl rfl rfl) hloaded hticks'
    exact ⟨⟨h.running, _, hstep, hsafe⟩, env', (core_run_succ n hstep).trans hrun⟩

/-- Settles O53: with only Ticks ahead by induction on the number of steps; of the other events only `Reset` touches
what the end of a run depends on while the machine runs and is loaded. -/
theorem selfJumpRunsForEver : Obligations.SelfJumpRunsForEver := by
  refine ⟨fun s nnn hrun hpc hlow hword => ?selfJump, fun n s h hloaded hticks => ?runs,
    fun s t h hloaded hreset hstep => ?others⟩
  case selfJump => exact ⟨hrun, nnn, hpc, (fetch_ok hlow).trans (congrArg Except.ok hword)⟩
  case runs =>
    obtain ⟨hsafe, env, hrun⟩ := run_of_endOfRun n h hloaded hticks
    exact ⟨⟨hsafe, _, hrun, endOfRun_congr h rfl rfl rfl rfl⟩, _, hrun, rfl⟩
  case others =>
    obtain ⟨env, ⟨rnd, hstep⟩ | rfl | ⟨k, rfl⟩ | rfl | ⟨⟨rest, ha⟩, -⟩ | ⟨rom, hstep⟩ | hstep⟩ := step_cases hstep
    · cases (tick_of_endOfRun (s := { s with env := env }) rnd (endOfRun_congr h rfl rfl rfl rfl)
        hloaded).symm.trans hstep
      exact endOfRun_congr h rfl rfl rfl rfl
    · exact endOfRun_congr h rfl rfl rfl rfl
    · exact endOfRun_congr h rfl rfl rfl rfl
    · exact endOfRun_congr h rfl rfl rfl rfl
    · exact absurd ha (hreset rest)
    · cases hloaded.symm.trans (loadRom_cases hstep).1
    · obtain ⟨-, r, hr, -⟩ := skipFault_cases hstep
      cases h.running.symm.trans hr

end Sys2Proof.Machine
